-- ==== Sys2Proof/Word.lean ====
section
/-! DEFINITION. The word types of the block, with the widths spec/00_scope.md R4 and R6 fix. Every number of the block is
unsigned (R8); bit 0 is the least significant bit. -/

namespace Sys2Proof

/-- One byte, the unit of `PAY`, `ad` and `out` (R8, R40). -/
abbrev Byte := BitVec 8

/-- A 16-bit advertising header (R60). -/
abbrev Header := BitVec 16

/-- The 32-bit command word (R68). -/
abbrev Word := BitVec 32

/-- The 16-bit immediate of a command word (R68). -/
abbrev Imm := BitVec 16

/-- The 4-bit packet type code, the nibble (R64). -/
abbrev Nibble := BitVec 4

/-- The 5-bit kind representation K = (unk, code) (R65). -/
abbrev KindRep := BitVec 5

/-- The 49-bit address operand on `cmd_opa` and `cmd_opb` (R74). -/
abbrev AddrOperand := BitVec 49

end Sys2Proof
end

