-- ==== Sys2Proof/Syntax.lean ====
section
/-! DEFINITION. The 23 commands of spec/30_encoding.md R70, one constructor per row of spec/opcode_table.json, each with
the operands its word carries (R69). The address operands are no part of a word: they are sampled from the ports
`cmd_opa` and `cmd_opb` (R74) and the elements come on the `ad` channel (R76). -/

namespace Sys2Proof

/-- The commands of the block. A constructor's arguments are the operands in the word's immediate (R69). Counts are
numbers: WellFormed says what an 8-bit field can hold. -/
inductive Instr where
  /-- `HDR.NEW K` (R100). -/
  | hdrNew (k : KindRep)
  /-- `HDR.PARSE b0, b1`: `b0` is the first byte (R101). -/
  | hdrParse (b0 b1 : Byte)
  /-- `HDR.BITS` (R102). -/
  | hdrBits
  /-- `HDR.TYPE` (R103). -/
  | hdrType
  /-- `HDR.TXRND` (R104). -/
  | hdrTxRnd
  /-- `HDR.SETTX b` (R105). -/
  | hdrSetTx (b : Bool)
  /-- `HDR.RXRND` (R106). -/
  | hdrRxRnd
  /-- `HDR.SETRX b` (R107). -/
  | hdrSetRx (b : Bool)
  /-- `HDR.LEN` (R108). -/
  | hdrLen
  /-- `HDR.SETLEN n`, `n` from 0 to 255 (R110). -/
  | hdrSetLen (n : Nat)
  /-- `PTY.DEC n` (R120). -/
  | ptyDec (n : Nibble)
  /-- `PTY.ENC K` (R121). -/
  | ptyEnc (k : KindRep)
  /-- `ASM.CONN_UNDIR`, `nelem` elements, 0 to 255 (R134). -/
  | asmConnUndir (nelem : Nat)
  /-- `ASM.CONN_DIR` (R139). -/
  | asmConnDir
  /-- `ASM.NONCONN_UNDIR` (R135). -/
  | asmNonconnUndir (nelem : Nat)
  /-- `ASM.SCAN_REQ` (R141). -/
  | asmScanReq
  /-- `ASM.SCAN_RSP` (R142). -/
  | asmScanRsp
  /-- `ASM.SCANNABLE_UNDIR` (R136). -/
  | asmScannableUndir (nelem : Nat)
  /-- `ASM.BEACON`; `nelem` counts only the caller's elements (R137). -/
  | asmBeacon (nelem : Nat)
  /-- `ASM.DISCOVERABLE`; `nelem` counts only the caller's elements (R138). -/
  | asmDiscoverable (nelem : Nat)
  /-- `PDU.HEADER` (R160). -/
  | pduHeader
  /-- `PDU.PAYLOAD` (R161). -/
  | pduPayload
  /-- `PDU.FRAME` (R162). -/
  | pduFrame
  deriving DecidableEq, Repr

end Sys2Proof
end

