-- ==== Sys2Proof/WellFormed.lean ====
section
/-! DEFINITION. The checks a command must pass to have a word: the two number operands fit their 8-bit immediate fields
(spec/30_encoding.md R69: the length `n` is 0 to 255, `NELEM` is 0 to 255). Every other operand has exactly the values its
field has, by its type. What the source calls reserved in the data (type codes 7 to 15, lengths outside 6 to 37,
non-canonical kinds) is never ill-formed (R73). -/

namespace Sys2Proof

/-- A number an 8-bit immediate field can hold (R69). -/
def fitsByte (n : Nat) : Bool := decide (n ≤ 255)

/-- The command has a word (R69, R72). -/
def Instr.wellFormed : Instr → Bool
  | .hdrNew _ => true
  | .hdrParse _ _ => true
  | .hdrBits => true
  | .hdrType => true
  | .hdrTxRnd => true
  | .hdrSetTx _ => true
  | .hdrRxRnd => true
  | .hdrSetRx _ => true
  | .hdrLen => true
  | .hdrSetLen n => fitsByte n
  | .ptyDec _ => true
  | .ptyEnc _ => true
  | .asmConnUndir n => fitsByte n
  | .asmConnDir => true
  | .asmNonconnUndir n => fitsByte n
  | .asmScanReq => true
  | .asmScanRsp => true
  | .asmScannableUndir n => fitsByte n
  | .asmBeacon n => fitsByte n
  | .asmDiscoverable n => fitsByte n
  | .pduHeader => true
  | .pduPayload => true
  | .pduFrame => true

end Sys2Proof
end

