-- ==== Sys2Proof/Decode.lean ====
section
/-! DEFINITION. The decoder of command words, total on all 2^32 words and refusing by name (spec/30_encoding.md R68 to
R73, R86), then the encoder written from the same tables, then the opcode map of R70 as data (mask and pattern of each
row), with which the decoder is compared. -/

namespace Sys2Proof

/-- Why a word is no command, in the order of R86. The host cannot tell the three apart. -/
inductive Illegal where
  /-- `word[31:24]` is not zero (R86 step 1). -/
  | zeroField
  /-- `word[7:0]` is not one of the 23 opcodes (R86 step 2). -/
  | unknownOpcode
  /-- a must-be-zero immediate bit of that command is 1 (R86 step 3, R72). -/
  | mustBeZero
  deriving DecidableEq, Repr

/-- What a word decodes to. -/
inductive Decoded where
  | command (i : Instr)
  | illegal (why : Illegal)
  deriving DecidableEq, Repr

/-- The command a word decodes to, if it is one. -/
def Decoded.instr? : Decoded → Option Instr
  | .command i => some i
  | .illegal _ => none

/-- `word[7:0]`, the opcode (R68). -/
def wordOp (w : Word) : Byte := w.extractLsb' 0 8

/-- `word[23:8]`, the immediate (R68). -/
def wordImm (w : Word) : Imm := w.extractLsb' 8 16

/-- `word[31:24]`, the field that must be zero (R68). -/
def wordZero (w : Word) : Byte := w.extractLsb' 24 8

/-- The command `i`, if the immediate bits of the mask `mbz` are all zero (R72). -/
def unlessSet (imm mbz : Imm) (i : Instr) : Decoded :=
  if imm &&& mbz = 0 then .command i else .illegal .mustBeZero

/-- One line of the decoder: the opcode, the immediate bits that must be zero, and the command with its operands. -/
structure DecodeLine where
  op : Byte
  mbz : Imm
  cmd : Instr
  deriving DecidableEq, Repr

/-- The lines of the header codec and the type conversions for an immediate (R69, R70). -/
def codecLines (imm : Imm) : List DecodeLine :=
  [⟨0x10, 0xFFE0, .hdrNew (imm.extractLsb' 0 5)⟩,
   ⟨0x11, 0x0000, .hdrParse (imm.extractLsb' 0 8) (imm.extractLsb' 8 8)⟩,
   ⟨0x12, 0xFFFF, .hdrBits⟩,
   ⟨0x13, 0xFFFF, .hdrType⟩,
   ⟨0x14, 0xFFFF, .hdrTxRnd⟩,
   ⟨0x15, 0xFFFE, .hdrSetTx (imm.getLsbD 0)⟩,
   ⟨0x16, 0xFFFF, .hdrRxRnd⟩,
   ⟨0x17, 0xFFFE, .hdrSetRx (imm.getLsbD 0)⟩,
   ⟨0x18, 0xFFFF, .hdrLen⟩,
   ⟨0x19, 0xFF00, .hdrSetLen (imm.extractLsb' 0 8).toNat⟩,
   ⟨0x20, 0xFFF0, .ptyDec (imm.extractLsb' 0 4)⟩,
   ⟨0x21, 0xFFE0, .ptyEnc (imm.extractLsb' 0 5)⟩]

/-- The lines of the assembler and the buffer readers for an immediate (R69, R70). -/
def pduLines (imm : Imm) : List DecodeLine :=
  [⟨0x40, 0xFF00, .asmConnUndir (imm.extractLsb' 0 8).toNat⟩,
   ⟨0x41, 0xFFFF, .asmConnDir⟩,
   ⟨0x42, 0xFF00, .asmNonconnUndir (imm.extractLsb' 0 8).toNat⟩,
   ⟨0x43, 0xFFFF, .asmScanReq⟩,
   ⟨0x44, 0xFFFF, .asmScanRsp⟩,
   ⟨0x46, 0xFF00, .asmScannableUndir (imm.extractLsb' 0 8).toNat⟩,
   ⟨0x48, 0xFF00, .asmBeacon (imm.extractLsb' 0 8).toNat⟩,
   ⟨0x49, 0xFF00, .asmDiscoverable (imm.extractLsb' 0 8).toNat⟩,
   ⟨0x50, 0xFFFF, .pduHeader⟩,
   ⟨0x51, 0xFFFF, .pduPayload⟩,
   ⟨0x52, 0xFFFF, .pduFrame⟩]

/-- Look an opcode up, check the must-be-zero bits, take the operands (R86 steps 2 to 4). -/
def decodeOp (op : Byte) (imm : Imm) : Decoded :=
  match (codecLines imm ++ pduLines imm).find? (fun l => l.op == op) with
  | some l => unlessSet imm l.mbz l.cmd
  | none => .illegal .unknownOpcode

/-- The decoder of one accepted word, in the order of R86. -/
def decode (w : Word) : Decoded :=
  if wordZero w = 0 then decodeOp (wordOp w) (wordImm w) else .illegal .zeroField

/-- The word with opcode `op`, immediate `imm` and zero top byte (R68). -/
def cmdWord (op : Byte) (imm : Imm) : Word := op.setWidth 32 ||| (imm.setWidth 32 <<< 8)

/-- The word of a command, from the tables of R69 and R70. -/
def encode : Instr → Word
  | .hdrNew k => cmdWord 0x10 (k.setWidth 16)
  | .hdrParse b0 b1 => cmdWord 0x11 (b0.setWidth 16 ||| (b1.setWidth 16 <<< 8))
  | .hdrBits => cmdWord 0x12 0
  | .hdrType => cmdWord 0x13 0
  | .hdrTxRnd => cmdWord 0x14 0
  | .hdrSetTx b => cmdWord 0x15 ((BitVec.ofBool b).setWidth 16)
  | .hdrRxRnd => cmdWord 0x16 0
  | .hdrSetRx b => cmdWord 0x17 ((BitVec.ofBool b).setWidth 16)
  | .hdrLen => cmdWord 0x18 0
  | .hdrSetLen n => cmdWord 0x19 ((BitVec.ofNat 8 n).setWidth 16)
  | .ptyDec n => cmdWord 0x20 (n.setWidth 16)
  | .ptyEnc k => cmdWord 0x21 (k.setWidth 16)
  | .asmConnUndir n => cmdWord 0x40 ((BitVec.ofNat 8 n).setWidth 16)
  | .asmConnDir => cmdWord 0x41 0
  | .asmNonconnUndir n => cmdWord 0x42 ((BitVec.ofNat 8 n).setWidth 16)
  | .asmScanReq => cmdWord 0x43 0
  | .asmScanRsp => cmdWord 0x44 0
  | .asmScannableUndir n => cmdWord 0x46 ((BitVec.ofNat 8 n).setWidth 16)
  | .asmBeacon n => cmdWord 0x48 ((BitVec.ofNat 8 n).setWidth 16)
  | .asmDiscoverable n => cmdWord 0x49 ((BitVec.ofNat 8 n).setWidth 16)
  | .pduHeader => cmdWord 0x50 0
  | .pduPayload => cmdWord 0x51 0
  | .pduFrame => cmdWord 0x52 0

/-- One row of the opcode map: a word `w` is the row's command when `w &&& mask = pattern` (R70). -/
structure OpcodeRow where
  mnemonic : String
  pattern : Word
  mask : Word
  deriving DecidableEq, Repr

/-- The rows of the header codec and the type conversions, copied from R70. -/
def codecRows : List OpcodeRow :=
  [⟨"HDR.NEW", 0x00000010, 0xFFFFE0FF⟩, ⟨"HDR.PARSE", 0x00000011, 0xFF0000FF⟩, ⟨"HDR.BITS", 0x00000012, 0xFFFFFFFF⟩,
   ⟨"HDR.TYPE", 0x00000013, 0xFFFFFFFF⟩, ⟨"HDR.TXRND", 0x00000014, 0xFFFFFFFF⟩, ⟨"HDR.SETTX", 0x00000015, 0xFFFFFEFF⟩,
   ⟨"HDR.RXRND", 0x00000016, 0xFFFFFFFF⟩, ⟨"HDR.SETRX", 0x00000017, 0xFFFFFEFF⟩, ⟨"HDR.LEN", 0x00000018, 0xFFFFFFFF⟩,
   ⟨"HDR.SETLEN", 0x00000019, 0xFFFF00FF⟩, ⟨"PTY.DEC", 0x00000020, 0xFFFFF0FF⟩, ⟨"PTY.ENC", 0x00000021, 0xFFFFE0FF⟩]

/-- The rows of the assembler and the buffer readers, copied from R70. -/
def pduRows : List OpcodeRow :=
  [⟨"ASM.CONN_UNDIR", 0x00000040, 0xFFFF00FF⟩, ⟨"ASM.CONN_DIR", 0x00000041, 0xFFFFFFFF⟩,
   ⟨"ASM.NONCONN_UNDIR", 0x00000042, 0xFFFF00FF⟩, ⟨"ASM.SCAN_REQ", 0x00000043, 0xFFFFFFFF⟩,
   ⟨"ASM.SCAN_RSP", 0x00000044, 0xFFFFFFFF⟩, ⟨"ASM.SCANNABLE_UNDIR", 0x00000046, 0xFFFF00FF⟩,
   ⟨"ASM.BEACON", 0x00000048, 0xFFFF00FF⟩, ⟨"ASM.DISCOVERABLE", 0x00000049, 0xFFFF00FF⟩,
   ⟨"PDU.HEADER", 0x00000050, 0xFFFFFFFF⟩, ⟨"PDU.PAYLOAD", 0x00000051, 0xFFFFFFFF⟩, ⟨"PDU.FRAME", 0x00000052, 0xFFFFFFFF⟩]

/-- The opcode map of R70, 23 rows. -/
def opcodeTable : List OpcodeRow := codecRows ++ pduRows

/-- A word is the command of a row (R70). -/
def OpcodeRow.covers (r : OpcodeRow) (w : Word) : Bool := w &&& r.mask == r.pattern

/-- The mnemonic of a command, as R70 spells it. -/
def Instr.mnemonic : Instr → String
  | .hdrNew _ => "HDR.NEW"
  | .hdrParse _ _ => "HDR.PARSE"
  | .hdrBits => "HDR.BITS"
  | .hdrType => "HDR.TYPE"
  | .hdrTxRnd => "HDR.TXRND"
  | .hdrSetTx _ => "HDR.SETTX"
  | .hdrRxRnd => "HDR.RXRND"
  | .hdrSetRx _ => "HDR.SETRX"
  | .hdrLen => "HDR.LEN"
  | .hdrSetLen _ => "HDR.SETLEN"
  | .ptyDec _ => "PTY.DEC"
  | .ptyEnc _ => "PTY.ENC"
  | .asmConnUndir _ => "ASM.CONN_UNDIR"
  | .asmConnDir => "ASM.CONN_DIR"
  | .asmNonconnUndir _ => "ASM.NONCONN_UNDIR"
  | .asmScanReq => "ASM.SCAN_REQ"
  | .asmScanRsp => "ASM.SCAN_RSP"
  | .asmScannableUndir _ => "ASM.SCANNABLE_UNDIR"
  | .asmBeacon _ => "ASM.BEACON"
  | .asmDiscoverable _ => "ASM.DISCOVERABLE"
  | .pduHeader => "PDU.HEADER"
  | .pduPayload => "PDU.PAYLOAD"
  | .pduFrame => "PDU.FRAME"

/-- The number of elements an element-taking command declares; none for a command that takes no `ad` byte (R76). -/
def Instr.nelem? : Instr → Option Nat
  | .hdrNew _ => none
  | .hdrParse _ _ => none
  | .hdrBits => none
  | .hdrType => none
  | .hdrTxRnd => none
  | .hdrSetTx _ => none
  | .hdrRxRnd => none
  | .hdrSetRx _ => none
  | .hdrLen => none
  | .hdrSetLen _ => none
  | .ptyDec _ => none
  | .ptyEnc _ => none
  | .asmConnUndir n => some n
  | .asmConnDir => none
  | .asmNonconnUndir n => some n
  | .asmScanReq => none
  | .asmScanRsp => none
  | .asmScannableUndir n => some n
  | .asmBeacon n => some n
  | .asmDiscoverable n => some n
  | .pduHeader => none
  | .pduPayload => none
  | .pduFrame => none

/-- The instruction the decoder reads from a word of `nbits` bits, numbered as spec/opcode_table.json numbers them. A
command is one 32-bit word (R68); bits above `nbits` are zero. -/
def decodeTableWord (nbits w : Nat) : Option Instr := (decode (BitVec.ofNat 32 (w % 2 ^ nbits))).instr?

end Sys2Proof
end

