-- ==== Sys2Proof/Config.lean ====
section
/-! DEFINITION. The parameters the source fixes (spec/00_scope.md R4), the three it leaves open (R5, decision D21: arguments
of the model), and the free values for what the spec calls unspecified. A free value is an opaque constant: nothing can
evaluate it, so what is proved holds whatever it is. -/

namespace Sys2Proof.Config

/-- `MAX_PAYLOAD`: capacity of the payload buffer and the largest legal payload length (R4). -/
abbrev maxPayload : Nat := 37

/-- `MIN_PAYLOAD`: the smallest legal payload length (R4). -/
abbrev minPayload : Nat := 6

/-- `ADDR_LEN`: raw bytes in a device address (R4). -/
abbrev addrLen : Nat := 6

/-- `DIRECTED_LEN`: payload length of a connectable-directed PDU (R4). -/
abbrev directedLen : Nat := 12

/-- `FLAGS_LEN_FIELD`: the first byte of the mandatory Flags element (R4). -/
abbrev flagsLenField : Byte := 0x02

/-- `FLAGS_AD_TYPE`, the second byte of the mandatory Flags element: an open parameter (R5, D21, U14; log 9). -/
opaque flagsAdType : Byte

/-- `FLAGS_BROADCAST`, the third byte of the element ASM.BEACON puts first: an open parameter (R5, D21, U14; log 9). -/
opaque flagsBroadcast : Byte

/-- `FLAGS_DISCOVERABLE`, the third byte of the element ASM.DISCOVERABLE puts first: an open parameter (R5, D21, U14; log 9). -/
opaque flagsDiscoverable : Byte

/-- Free value: `PHDR` where the spec calls it unspecified, drawn by the counter State.fresh (R33, R140, U4; log 3). -/
opaque freeHeader : Nat → Header

/-- Free value: byte `i` of `PAY` where the spec calls it unspecified: counter, then index (R33, R140, U4; log 3). -/
opaque freePayByte : Nat → Nat → Byte

/-- Free value: `POS` after a reset, unspecified within the bound 0 to 37 that R23 sets (R33; log 3). -/
opaque freePos : Nat → Fin 38

end Sys2Proof.Config
end

