-- ==== Sys2Proof/Machine/State.lean ====
section
/-! DEFINITION. The state of the block as plain data (spec/10_state.md, INVENTORY.md '## State'), the vocabulary of its
channels, the reasons a step can stop, and the state after reset. -/

namespace Sys2Proof.Machine

/-- The PDU kinds: seven named ones and the unrecognized code with its raw nibble (R64, R122). -/
inductive Kind where
  | connUndir
  | connDir
  | nonconnUndir
  | scanReq
  | scanRsp
  | connectReq
  | scannableUndir
  | unknown (code : Nibble)
  deriving DecidableEq, Repr

/-- The response status: exactly six values (R81, U10). -/
inductive Status where
  | ok
  | capacity
  | unsupported
  | fatal
  | illegal
  | noPdu
  deriving DecidableEq, Repr

/-- One beat of the `rsp` channel (R80). -/
structure Response where
  status : Status
  data : BitVec 16
  deriving DecidableEq, Repr

/-- One beat of the `out` channel: `out_byte` and `out_last` (R52). -/
structure OutBeat where
  byte : Byte
  last : Bool
  deriving DecidableEq, Repr

/-- One beat of the `cmd` channel: `cmd_word`, `cmd_opa`, `cmd_opb` (R29). -/
structure CmdBeat where
  word : Word
  opa : AddrOperand
  opb : AddrOperand
  deriving DecidableEq, Repr

/-- The synchronous failures, all there are (R170). -/
inductive Failure where
  /-- The elements do not fit (R171). -/
  | capacityExceeded
  /-- Scan-request and scan-response construction (R172). -/
  | unsupported
  /-- A length outside 6 to 37 given to the length setter (R173). -/
  | fatalViolation (n : Nat)
  /-- A word that is no command (R174). -/
  | illegal
  /-- A reader of the slot finds `PV = 0` (R175). -/
  | noPdu
  deriving DecidableEq, Repr

/-- The payload buffer: the (index, byte) pairs of the bytes that are not zero, indices strictly rising. What is not
listed reads as Memory.unlisted. -/
abbrev Memory := List Host.Cell

/-- The state. The first six fields are the spec's own state (R20 to R23); the next six are the command in progress (R24,
R30, R31, R192); the next five are what the host offers at the ports (R29, R197; log 1, log 4); then the beats
transferred so far (R205); the last is the model's own counter of free values (log 3). -/
structure State where
  /-- `H`, the working header register (R20). -/
  h : Header
  /-- `PV`: the slot holds a PDU (R21). -/
  pv : Bool
  /-- `PHDR`, the header of the held PDU (R21). -/
  phdr : Header
  /-- `PAY[0..36]`, the payload buffer (R21, R41). -/
  pay : Memory
  /-- `FATAL`, the fatal-violation flag (R22). -/
  fatal : Bool
  /-- `POS`, the writer cursor (R23). -/
  pos : Nat
  /-- A command has been accepted and its response beat is outstanding (R24, R31). -/
  busy : Bool
  /-- `cmd_word` as sampled at the last `cmd` beat (R30, R57). -/
  word : Word
  /-- `cmd_opa` as sampled at the last `cmd` beat (R30, R57). -/
  opa : AddrOperand
  /-- `cmd_opb` as sampled at the last `cmd` beat (R30, R57). -/
  opb : AddrOperand
  /-- The `ad` bytes the command in progress has taken (R50, R192). -/
  adTaken : List Byte
  /-- How many `out` beats the command in progress has sent (R52, R192). -/
  outSent : Nat
  /-- A reset pulse on `rst`, to be applied before the next beat (R190; log 4). -/
  rst : Bool
  /-- The `cmd` beats the host offers, in order (R29, R197). -/
  cmdQ : List CmdBeat
  /-- The `ad` bytes the host offers that no command has taken, in order (R50, R58). -/
  adQ : List Byte
  /-- How many more `out` beats the host is ready to take (R29 `out_ready`, R197). -/
  outTake : Nat
  /-- How many more `rsp` beats the host is ready to take (R29 `rsp_ready`, R197). -/
  rspTake : Nat
  /-- The `out` beats transferred so far, oldest first (R205). -/
  outLog : List OutBeat
  /-- The `rsp` beats transferred so far, oldest first (R205). -/
  rspLog : List Response
  /-- How many times a free value has been drawn (the model's own; log 3). -/
  fresh : Nat
  deriving DecidableEq, Repr

/-- Why the machine stops. -/
inductive Fault where
  /-- Raised by the step, from a state with `FATAL = 1` and no reset pulse: the block accepts no command and has no
  successor (R176, R183). Safe: the spec itself says nothing happens there until a reset (log 6). -/
  | fatalHalt
  /-- Raised by PDU.PAYLOAD and PDU.FRAME, when the stored length `len` asks for a `PAY` index above 36, which does not
  exist (R41, R44). Safe: only states that no run reaches have such a length with `PV = 1` (R27; log 5). -/
  | payIndex (len : Nat)
  deriving DecidableEq, Repr

/-- Why an instruction has no meaning. -/
inductive Refusal where
  /-- Raised by an arm of exec whose instruction has no meaning yet; no arm does. Safe: the run stops. -/
  | notModelled (mnemonic : String)
  deriving DecidableEq, Repr

/-- The state right after reset (R33, R191): `H = 0x0000`, `PV = 0`, `FATAL = 0`, no command in progress. `PHDR`, `PAY`,
`POS` and the sampled ports, which the spec leaves unspecified, are zero here (DESIGN CHOICE, log 2). The host has
offered nothing yet (log 1). -/
def State.reset : State where
  h := 0x0000
  pv := false
  phdr := 0x0000
  pay := []
  fatal := false
  pos := 0
  busy := false
  word := 0
  opa := 0
  opb := 0
  adTaken := []
  outSent := 0
  rst := false
  cmdQ := []
  adQ := []
  outTake := 0
  rspTake := 0
  outLog := []
  rspLog := []
  fresh := 0

end Sys2Proof.Machine
end

