-- ==== Sys2Proof/Machine/Operands.lean ====
section
/-! DEFINITION. The operand forms: PDU kinds and their two total conversions (spec/30_encoding.md R64 to R67), the address
operand (R74), the `ad` framing of elements (spec/20_memory.md R50, R51), byte orders (R42, R163), and the generated Flags
element (spec/42_assembler.md R133). -/

namespace Sys2Proof.Machine

/-- `Enc(K) = K[3:0]`, total on all 32 values of `K` (R66). -/
def enc (k : KindRep) : Nibble := k.extractLsb' 0 4

/-- `Dec(n) = (n >= 7, n)`, total on all 16 nibbles (R67). -/
def dec (n : Nibble) : KindRep := BitVec.ofBool (decide (7 ≤ n.toNat)) ++ n

/-- A representation is canonical when `unk = (code >= 7)` (R65). -/
def canonical (k : KindRep) : Bool := k.getLsbD 4 == decide (7 ≤ (enc k).toNat)

/-- The representation of a kind: a named kind is `(0, code)`, an unknown one `(1, n)` (R64, R65). -/
def Kind.rep : Kind → KindRep
  | .connUndir => 0b00000
  | .connDir => 0b00001
  | .nonconnUndir => 0b00010
  | .scanReq => 0b00011
  | .scanRsp => 0b00100
  | .connectReq => 0b00101
  | .scannableUndir => 0b00110
  | .unknown n => 1#1 ++ n

/-- The kind of a nibble: codes 7 to 15 keep their nibble (R64, U2). -/
def Kind.ofNibble (n : Nibble) : Kind :=
  if n = 0 then .connUndir
  else if n = 1 then .connDir
  else if n = 2 then .nonconnUndir
  else if n = 3 then .scanReq
  else if n = 4 then .scanRsp
  else if n = 5 then .connectReq
  else if n = 6 then .scannableUndir
  else .unknown n

/-- Raw byte `a_i` of an address operand: bits `8i+7 : 8i` (R74). -/
def addrByte (a : AddrOperand) (i : Nat) : Byte := a.extractLsb' (8 * i) 8

/-- `A.bytes = [a0, a1, a2, a3, a4, a5]` (R74, R43). -/
def addrBytes (a : AddrOperand) : List Byte :=
  [addrByte a 0, addrByte a 1, addrByte a 2, addrByte a 3, addrByte a 4, addrByte a 5]

/-- `A.rnd`, bit 48: 1 = random address (R74). -/
def addrRnd (a : AddrOperand) : Bool := a.getLsbD 48

/-- The two bytes of a header, low byte first (R42). -/
def headerBytes (h : Header) : List Byte := [h.extractLsb' 0 8, h.extractLsb' 8 8]

/-- `Frame(h, p)`: the two header bytes, low byte first, then the payload (R163). -/
def frameBytes (h : Header) (payload : List Byte) : List Byte := headerBytes h ++ payload

/-- `FlagsElem(f)`, the mandatory three-byte Flags element (R133). -/
def flagsElem (f : Byte) : List Byte := [Config.flagsLenField, Config.flagsAdType, f]

/-- `AdTake()` done `k` times: the bytes taken and the rest, or none where the host has not offered that many (R50). -/
def adTakeN (k : Nat) (q : List Byte) : Option (List Byte × List Byte) :=
  if k ≤ q.length then some (q.take k, q.drop k) else none

/-- One element off the stream: a length byte `L`, then exactly `L` bytes; the length byte is framing only (R51). -/
def adReadElem : List Byte → Option (List Byte × List Byte)
  | [] => none
  | len :: q => adTakeN len.toNat q

/-- `AdReadSeq(n)` on the bytes of the stream: the `n` elements in order and the bytes left over, or none where the
declared sequence is not complete yet (R51). -/
def adReadSeq : Nat → List Byte → Option (List (List Byte) × List Byte)
  | 0, q => some ([], q)
  | n + 1, q =>
    match adReadElem q with
    | none => none
    | some (e, q') =>
      match adReadSeq n q' with
      | none => none
      | some (es, rest) => some (e :: es, rest)

/-- The `out` beats of a byte list: `out_last` is 1 on the beat of the last byte only (R52). -/
def outBeats : List Byte → List OutBeat
  | [] => []
  | [b] => [⟨b, true⟩]
  | b :: b' :: bs => ⟨b, false⟩ :: outBeats (b' :: bs)

end Sys2Proof.Machine
end

