-- ==== Sys2Proof/Machine/Ops.lean ====
section
/-! DEFINITION. The named operations over the payload buffer, the registers and the channels: MemRead, MemWrite, SpaceLeft,
WriteSlice, AdReadSeq, Emit, Respond and raise of spec/00_scope.md R9. Every meaning is written with these. Raising a
failure is ONE operation (State.raise), from spec/60_exceptions.md R170; there is nothing to return from (R178). -/

namespace Sys2Proof.Machine

/-! ### The payload buffer (R40, R41, R44, R45) -/

/-- What a byte of `PAY` that is not listed reads as (log 2). -/
def Memory.unlisted : Byte := 0x00

/-- Read one byte of the buffer. -/
def Memory.read : Memory → Nat → Byte
  | [], _ => Memory.unlisted
  | (x, v) :: rest, a => if x = a then v else Memory.read rest a

/-- Forget what is listed at one index. -/
def Memory.erase : Memory → Nat → Memory
  | [], _ => []
  | (x, v) :: rest, a => if x = a then Memory.erase rest a else (x, v) :: Memory.erase rest a

/-- List one byte at an index that is not listed, in rising order. -/
def Memory.insert : Memory → Nat → Byte → Memory
  | [], a, b => [(a, b)]
  | (x, v) :: rest, a, b => if a < x then (a, b) :: (x, v) :: rest else (x, v) :: Memory.insert rest a b

/-- Write one byte and keep the canonical form: the value an unlisted index reads as is not listed. -/
def Memory.write (m : Memory) (a : Nat) (b : Byte) : Memory :=
  if b = Memory.unlisted then m.erase a else (m.erase a).insert a b

/-- Write bytes at rising indices, the first at `a` (R45). -/
def Memory.writeBytes : Memory → Nat → List Byte → Memory
  | m, _, [] => m
  | m, a, b :: bs => Memory.writeBytes (m.write a b) (a + 1) bs

/-- Read `n` bytes at rising indices, the first at `a` (R44). -/
def Memory.readBytes (m : Memory) : Nat → Nat → List Byte
  | _, 0 => []
  | a, n + 1 => m.read a :: Memory.readBytes m (a + 1) n

/-- The canonical form from index `lo` on: rising indices below 37, no entry an unlisted index would read as. -/
def Memory.wfFrom : Nat → Memory → Bool
  | _, [] => true
  | lo, (a, b) :: rest =>
    decide (lo ≤ a) && decide (a < Config.maxPayload) && decide (b ≠ Memory.unlisted) && Memory.wfFrom (a + 1) rest

/-- The canonical form of the payload buffer. -/
def Memory.wf (m : Memory) : Bool := Memory.wfFrom 0 m

/-- The 37 free bytes of an unspecified buffer, drawn by the counter `n` (R140, U4; log 3). -/
def Memory.free (n : Nat) : Memory := Memory.writeBytes [] 0 ((List.range Config.maxPayload).map (Config.freePayByte n))

/-! ### Register and slot updates -/

/-- `H <- v` (R9, R20). -/
def State.setH (s : State) (v : Header) : State := { s with h := v }

/-- `FATAL <- 1` (R22). -/
def State.setFatal (s : State) : State := { s with fatal := true }

/-- `POS <- n` (R23). -/
def State.setPos (s : State) (n : Nat) : State := { s with pos := n }

/-- `PHDR <- v ; PV <- 1` (R140). -/
def State.holdPdu (s : State) (v : Header) : State := { s with phdr := v, pv := true }

/-- `PV <- 0`, with `PHDR` and `PAY` unspecified: free values are drawn (R140, U4; log 3). -/
def State.dropPdu (s : State) : State :=
  { s with pv := false, phdr := Config.freeHeader s.fresh, pay := Memory.free s.fresh, fresh := s.fresh + 1 }

/-- `MemWrite(PAY, a, len(bs), bs)`; every caller stays within index 36 (R45). -/
def State.memWrite (s : State) (a : Nat) (bs : List Byte) : State := { s with pay := s.pay.writeBytes a bs }

/-- `MemRead(PAY, a, n)`, defined for `a + n <= 37` only (R44, R41). -/
def State.memRead (s : State) (a n : Nat) : Option (List Byte) :=
  if a + n ≤ Config.maxPayload then some (s.pay.readBytes a n) else none

/-- Step 1 of assembly: 37 zero bytes, and `POS <- 0` (R132, R23). -/
def State.zeroFill (s : State) : State := (s.memWrite 0 (List.replicate Config.maxPayload 0x00)).setPos 0

/-- `SpaceLeft()` (R47). -/
def State.spaceLeft (s : State) : Nat := Config.maxPayload - s.pos

/-- `WriteSlice(bs)`: all or nothing; none is the answer `full` (R48). -/
def State.writeSlice (s : State) (bs : List Byte) : Option State :=
  if s.spaceLeft < bs.length then none else some ((s.memWrite s.pos bs).setPos (s.pos + bs.length))

/-! ### The channels -/

/-- The `cmd` beat: word and address operands are sampled, the command is in progress (R30, R31 step 1). -/
def State.accept (s : State) (c : CmdBeat) (rest : List CmdBeat) : State :=
  { s with cmdQ := rest, busy := true, word := c.word, opa := c.opa, opb := c.opb, adTaken := [], outSent := 0 }

/-- `ad` beats: the command in progress has now taken `taken`, and `rest` is still offered (R50). -/
def State.takeAd (s : State) (taken rest : List Byte) : State := { s with adTaken := taken, adQ := rest }

/-- `out` beats transferred to the host (R52). -/
def State.sendOut (s : State) (beats : List OutBeat) : State :=
  { s with outLog := s.outLog ++ beats, outSent := s.outSent + beats.length, outTake := s.outTake - beats.length }

/-- The `rsp` beat: it ends the command (R80, R31 step 4). -/
def State.endCommand (s : State) (r : Response) : State :=
  { s with busy := false, adTaken := [], outSent := 0, rspLog := s.rspLog ++ [r], rspTake := s.rspTake - 1 }

/-- The reset pulse: the reset state of R33, with `PHDR`, `PAY` and `POS` unspecified (free values, log 3). A command in
progress is abandoned (R192). What the host offers and what was already transferred are the host's. -/
def State.applyReset (s : State) : State :=
  { State.reset with
    phdr := Config.freeHeader s.fresh, pay := Memory.free s.fresh, pos := (Config.freePos s.fresh).val,
    cmdQ := s.cmdQ, adQ := s.adQ, outTake := s.outTake, rspTake := s.rspTake,
    outLog := s.outLog, rspLog := s.rspLog, fresh := s.fresh + 1 }

/-- `Respond(st, d)` from the held state `s` with the command's effects in `eff`: where the host takes the response, the
effects happen and the command ends; where it does not, the command holds and no state changes (R9, R80, R197, U15). -/
def State.respond (s eff : State) (st : Status) (d : BitVec 16) : Host.Outcome State Fault Refusal :=
  if s.rspTake = 0 then .next s else .next (eff.endCommand ⟨st, d⟩)

/-- `Emit(bs)`, then go on with `k`: the beats not yet sent, as far as the host takes them; where it does not take them
all, the command holds (R52, R197). -/
def State.emit (s : State) (bs : List Byte) (k : State → Host.Outcome State Fault Refusal) :
    Host.Outcome State Fault Refusal :=
  if ((outBeats bs).drop s.outSent).length ≤ s.outTake then k (s.sendOut ((outBeats bs).drop s.outSent))
  else .next (s.sendOut (((outBeats bs).drop s.outSent).take s.outTake))

/-- `AdReadSeq(n)`, then go on with `k`: the whole declared sequence is taken; where the host has not offered it all, what
it has offered is taken and the command holds (R51, R197). -/
def State.readElems (s : State) (n : Nat) (k : List (List Byte) → State → Host.Outcome State Fault Refusal) :
    Host.Outcome State Fault Refusal :=
  match adReadSeq n (s.adTaken ++ s.adQ) with
  | none => .next (s.takeAd (s.adTaken ++ s.adQ) [])
  | some (es, rest) => k es (s.takeAd ((s.adTaken ++ s.adQ).take ((s.adTaken ++ s.adQ).length - rest.length)) rest)

/-! ### Raising a failure (R170, R177) -/

/-- The status a failure is reported with (R170). -/
def failureStatus : Failure → Status
  | .capacityExceeded => .capacity
  | .unsupported => .unsupported
  | .fatalViolation _ => .fatal
  | .illegal => .illegal
  | .noPdu => .noPdu

/-- What a failure records in `rsp_data` (R170, R82). -/
def failureData : Failure → BitVec 16
  | .capacityExceeded => 0
  | .unsupported => 0
  | .fatalViolation n => BitVec.ofNat 16 n
  | .illegal => 0
  | .noPdu => 0

/-- What a failure does to the state (R170, column 'state effect'). -/
def failureEffect : Failure → State → State
  | .capacityExceeded, s => s.dropPdu
  | .unsupported, s => s
  | .fatalViolation _, s => s.setFatal
  | .illegal, s => s
  | .noPdu, s => s

/-- `raise X`, from the held state `s` with the work done so far in `cur`: the failure's state effect, then its response
beat, which ends the command (R9, R170, R177). -/
def State.raise (s cur : State) (f : Failure) : Host.Outcome State Fault Refusal :=
  s.respond (failureEffect f cur) (failureStatus f) (failureData f)

end Sys2Proof.Machine
end

