-- ==== Sys2Proof/Machine/Flags.lean ====
section
/-! DEFINITION. The flag and field computations. The block has no condition code (spec/10_state.md R25): its flags are the
header's address flags and reserved bits, and the two status flags `PV` and `FATAL`. Here are the pure functions on a
16-bit header that spec/40_header_codec.md names (HdrNew to HdrSetLen), with the masks of spec/30_encoding.md R61, and
the range test that sets `FATAL`. -/

namespace Sys2Proof.Machine

/-- `TYPE_MASK` (R61). -/
abbrev typeMask : Header := 0x000F

/-- `TXADD_MASK` (R61). -/
abbrev txAddMask : Header := 0x0040

/-- `RXADD_MASK` (R61). -/
abbrev rxAddMask : Header := 0x0080

/-- `LEN_MASK` (R61). -/
abbrev lenMask : Header := 0x3F00

/-- `RSVD_MASK` (R61). -/
abbrev rsvdMask : Header := 0xC030

/-- `HdrNew(K) = zext_16(Enc(K))` (R100). -/
def hdrNew (k : KindRep) : Header := (enc k).setWidth 16

/-- `HdrParse(b0, b1)`: the second byte above the first (R101, R42). -/
def hdrParse (b0 b1 : Byte) : Header := b0.setWidth 16 ||| (b1.setWidth 16 <<< 8)

/-- `HdrBits(h) = h` (R102). -/
def hdrBits (h : Header) : BitVec 16 := h

/-- `h[3:0]`, the type nibble (R60). -/
def hdrNibble (h : Header) : Nibble := h.extractLsb' 0 4

/-- `HdrType(h) = Dec(h[3:0])` (R103). -/
def hdrType (h : Header) : KindRep := dec (hdrNibble h)

/-- `HdrTxRnd(h) = h[6]` (R104). -/
def hdrTxRnd (h : Header) : Bool := h.getLsbD 6

/-- `HdrRxRnd(h) = h[7]` (R106). -/
def hdrRxRnd (h : Header) : Bool := h.getLsbD 7

/-- `HdrLen(h) = h[13:8]`, 0 to 63 (R108). -/
def hdrLen (h : Header) : BitVec 6 := h.extractLsb' 8 6

/-- `HdrSetTx(h, b) = (h & ~0x0040) | (zext_16(b) << 6)` (R105). -/
def hdrSetTx (h : Header) (b : Bool) : Header := (h &&& ~~~txAddMask) ||| ((BitVec.ofBool b).setWidth 16 <<< 6)

/-- `HdrSetRx(h, b) = (h & ~0x0080) | (zext_16(b) << 7)` (R107). -/
def hdrSetRx (h : Header) (b : Bool) : Header := (h &&& ~~~rxAddMask) ||| ((BitVec.ofBool b).setWidth 16 <<< 7)

/-- `HdrSetLen(h, n) = (h & ~0x3F00) | (zext_16(n) << 8)`, used for `6 <= n <= 37` only (R110, R144). -/
def hdrSetLen (h : Header) (n : Nat) : Header := (h &&& ~~~lenMask) ||| (BitVec.ofNat 16 n <<< 8)

/-- The length a setter may be given: 6 to 37; anything else sets `FATAL` (R110, R63). -/
def lenLegal (n : Nat) : Bool := decide (Config.minPayload ≤ n) && decide (n ≤ Config.maxPayload)

/-- A flag as response data: `zext_16(b)` (R82). -/
def flagData (b : Bool) : BitVec 16 := (BitVec.ofBool b).setWidth 16

end Sys2Proof.Machine
end

