-- ==== Sys2Proof/Machine/Assembler.lean ====
section
/-! DEFINITION. The eight commands of the assembler (spec/42_assembler.md R130 to R146), after the procedures they share:
AdvAssemble (R132) and AsmCommit (R140). None touches `H`. -/

namespace Sys2Proof.Machine

/-- Step 3 of assembly: each element in order through the bounded writer, stopping at the first that does not fit; the
flag says whether all fitted (R132). -/
def writeElems : List (List Byte) → State → State × Bool
  | [], s => (s, true)
  | e :: es, s =>
    match s.writeSlice e with
    | none => (s, false)
    | some s' => writeElems es s'

/-- Step 5 of assembly: type, length, TxAdd from the address, RxAdd cleared (R132). -/
def advHeader (ty : Kind) (a : AddrOperand) (used : Nat) : Header :=
  hdrSetRx (hdrSetTx (hdrSetLen (hdrNew ty.rep) used) (addrRnd a)) false

/-- `AdvAssemble(ty, A, elems)`: the state it leaves, and the finished header or none for `full` (R132). -/
def advAssemble (ty : Kind) (a : AddrOperand) (es : List (List Byte)) (s : State) : State × Option Header :=
  match s.zeroFill.writeSlice (addrBytes a) with
  | none => (s.zeroFill, none)
  | some s2 =>
    match writeElems es s2 with
    | (s3, false) => (s3, none)
    | (s3, true) => (s3, some (advHeader ty a (Config.maxPayload - s3.spaceLeft)))

/-- `AsmCommit(r)`: success fills the slot, `full` empties it (R140). -/
def asmCommit (s : State) (r : State × Option Header) : Host.Outcome State Fault Refusal :=
  match r with
  | (cur, some h) => s.respond (cur.holdPdu h) .ok 0
  | (cur, none) => s.raise cur .capacityExceeded

/-- The five element-taking commands: read the declared sequence, assemble `first ++ elems` for address A, commit. -/
def assembleWith (ty : Kind) (first : List (List Byte)) (nelem : Nat) (s : State) : Host.Outcome State Fault Refusal :=
  s.readElems nelem (fun es s1 => asmCommit s1 (advAssemble ty s1.opa (first ++ es) s1))

/-- `ASM.CONN_UNDIR` (R134). -/
def execAsmConnUndir (nelem : Nat) (s : State) : Host.Outcome State Fault Refusal := assembleWith .connUndir [] nelem s

/-- `ASM.NONCONN_UNDIR` (R135). -/
def execAsmNonconnUndir (nelem : Nat) (s : State) : Host.Outcome State Fault Refusal :=
  assembleWith .nonconnUndir [] nelem s

/-- `ASM.SCANNABLE_UNDIR` (R136). -/
def execAsmScannableUndir (nelem : Nat) (s : State) : Host.Outcome State Fault Refusal :=
  assembleWith .scannableUndir [] nelem s

/-- `ASM.BEACON`: the broadcast Flags element first (R137). -/
def execAsmBeacon (nelem : Nat) (s : State) : Host.Outcome State Fault Refusal :=
  assembleWith .nonconnUndir [flagsElem Config.flagsBroadcast] nelem s

/-- `ASM.DISCOVERABLE`: the general-discoverability Flags element first (R138). -/
def execAsmDiscoverable (nelem : Nat) (s : State) : Host.Outcome State Fault Refusal :=
  assembleWith .connUndir [flagsElem Config.flagsDiscoverable] nelem s

/-- The header of a connectable-directed PDU: length 12, TxAdd and RxAdd from the two addresses (R139). -/
def directedHeader (a b : AddrOperand) : Header :=
  hdrSetRx (hdrSetTx (hdrSetLen (hdrNew Kind.connDir.rep) Config.directedLen) (addrRnd a)) (addrRnd b)

/-- The payload of a connectable-directed PDU: two fixed copies into a zeroed buffer (R139). `POS` is set to 0 and no
byte goes through the bounded writer (R23; log 11). -/
def directedPayload (a b : AddrOperand) (s : State) : State :=
  (s.zeroFill.memWrite 0 (addrBytes a)).memWrite Config.addrLen (addrBytes b)

/-- `ASM.CONN_DIR`: it cannot fail (R139). -/
def execAsmConnDir (s : State) : Host.Outcome State Fault Refusal :=
  s.respond ((directedPayload s.opa s.opb s).holdPdu (directedHeader s.opa s.opb)) .ok 0

/-- `ASM.SCAN_REQ`: always unsupported, nothing read or written (R141). -/
def execAsmScanReq (s : State) : Host.Outcome State Fault Refusal := s.raise s .unsupported

/-- `ASM.SCAN_RSP`: always unsupported, nothing read or written (R142). -/
def execAsmScanRsp (s : State) : Host.Outcome State Fault Refusal := s.raise s .unsupported

end Sys2Proof.Machine
end

