-- ==== Sys2Proof/Machine/HeaderCodec.lean ====
section
/-! DEFINITION. The ten commands of the header codec (spec/40_header_codec.md R100 to R110). All act on `H` alone (R109). -/

namespace Sys2Proof.Machine

/-- `HDR.NEW K`: `H <- HdrNew(K)` (R100). -/
def execHdrNew (k : KindRep) (s : State) : Host.Outcome State Fault Refusal := s.respond (s.setH (hdrNew k)) .ok 0

/-- `HDR.PARSE b0, b1`: `H <- HdrParse(b0, b1)`, no masking and no check (R101). -/
def execHdrParse (b0 b1 : Byte) (s : State) : Host.Outcome State Fault Refusal :=
  s.respond (s.setH (hdrParse b0 b1)) .ok 0

/-- `HDR.BITS`: all 16 bits (R102). -/
def execHdrBits (s : State) : Host.Outcome State Fault Refusal := s.respond s .ok (hdrBits s.h)

/-- `HDR.TYPE`: the kind of the type nibble (R103). -/
def execHdrType (s : State) : Host.Outcome State Fault Refusal := s.respond s .ok ((hdrType s.h).setWidth 16)

/-- `HDR.TXRND`: bit 6 (R104). -/
def execHdrTxRnd (s : State) : Host.Outcome State Fault Refusal := s.respond s .ok (flagData (hdrTxRnd s.h))

/-- `HDR.SETTX b`: bit 6 of `H` (R105). -/
def execHdrSetTx (b : Bool) (s : State) : Host.Outcome State Fault Refusal := s.respond (s.setH (hdrSetTx s.h b)) .ok 0

/-- `HDR.RXRND`: bit 7 (R106). -/
def execHdrRxRnd (s : State) : Host.Outcome State Fault Refusal := s.respond s .ok (flagData (hdrRxRnd s.h))

/-- `HDR.SETRX b`: bit 7 of `H` (R107). -/
def execHdrSetRx (b : Bool) (s : State) : Host.Outcome State Fault Refusal := s.respond (s.setH (hdrSetRx s.h b)) .ok 0

/-- `HDR.LEN`: bits 13:8, without validation (R108). -/
def execHdrLen (s : State) : Host.Outcome State Fault Refusal := s.respond s .ok ((hdrLen s.h).setWidth 16)

/-- `HDR.SETLEN n`: the range check comes before any change; out of range is the fatal violation (R110, R173). -/
def execHdrSetLen (n : Nat) (s : State) : Host.Outcome State Fault Refusal :=
  if lenLegal n then s.respond (s.setH (hdrSetLen s.h n)) .ok 0 else s.raise s (.fatalViolation n)

end Sys2Proof.Machine
end

