-- ==== Sys2Proof/Machine/PduBuffer.lean ====
section
/-! DEFINITION. The three readers of the PDU slot (spec/43_pdu_buffer.md R160 to R165). Each first tests `PV` (R164); none
writes any state. -/

namespace Sys2Proof.Machine

/-- The payload length of the held PDU, `PHDR[13:8]`. -/
def slotLen (s : State) : Nat := (hdrLen s.phdr).toNat

/-- Emit what `f` makes of the payload bytes and answer their number (R161, R162). With `PV = 0` it is NoPdu; a stored
length above 37, which no run reaches, names an index that does not exist (R41, R44; log 5). -/
def emitSlot (f : List Byte → List Byte) (count : BitVec 16) (s : State) : Host.Outcome State Fault Refusal :=
  if s.pv then
    match s.memRead 0 (slotLen s) with
    | none => .fault (.payIndex (slotLen s))
    | some payload => s.emit (f payload) (fun s1 => s1.respond s1 .ok count)
  else s.raise s .noPdu

/-- `PDU.HEADER`: a copy of the header (R160). -/
def execPduHeader (s : State) : Host.Outcome State Fault Refusal :=
  if s.pv then s.respond s .ok s.phdr else s.raise s .noPdu

/-- `PDU.PAYLOAD`: exactly the first `PHDR[13:8]` bytes (R161). -/
def execPduPayload (s : State) : Host.Outcome State Fault Refusal :=
  emitSlot (fun payload => payload) ((hdrLen s.phdr).setWidth 16) s

/-- `PDU.FRAME`: the two header bytes, low first, then the payload (R162, R163). -/
def execPduFrame (s : State) : Host.Outcome State Fault Refusal :=
  emitSlot (frameBytes s.phdr) ((hdrLen s.phdr).setWidth 16 + 2) s

end Sys2Proof.Machine
end

