-- ==== Sys2Proof/Machine/PduType.lean ====
section
/-! DEFINITION. The two type conversion commands (spec/41_pdu_type.md R120, R121). They touch no state. -/

namespace Sys2Proof.Machine

/-- `PTY.DEC n`: nibble to kind (R120). -/
def execPtyDec (n : Nibble) (s : State) : Host.Outcome State Fault Refusal := s.respond s .ok ((dec n).setWidth 16)

/-- `PTY.ENC K`: kind to nibble (R121). -/
def execPtyEnc (k : KindRep) (s : State) : Host.Outcome State Fault Refusal := s.respond s .ok ((enc k).setWidth 16)

end Sys2Proof.Machine
end

