-- ==== Sys2Proof/Machine/Dispatch.lean ====
section
/-! DEFINITION. One arm per command (spec/30_encoding.md R70), each a direct call of its meaning. -/

namespace Sys2Proof.Machine

/-- The meaning of every command. -/
def exec (i : Instr) (s : State) : Host.Outcome State Fault Refusal :=
  match i with
  | .hdrNew k => Sys2Proof.Machine.execHdrNew k s
  | .hdrParse b0 b1 => Sys2Proof.Machine.execHdrParse b0 b1 s
  | .hdrBits => Sys2Proof.Machine.execHdrBits s
  | .hdrType => Sys2Proof.Machine.execHdrType s
  | .hdrTxRnd => Sys2Proof.Machine.execHdrTxRnd s
  | .hdrSetTx b => Sys2Proof.Machine.execHdrSetTx b s
  | .hdrRxRnd => Sys2Proof.Machine.execHdrRxRnd s
  | .hdrSetRx b => Sys2Proof.Machine.execHdrSetRx b s
  | .hdrLen => Sys2Proof.Machine.execHdrLen s
  | .hdrSetLen n => Sys2Proof.Machine.execHdrSetLen n s
  | .ptyDec n => Sys2Proof.Machine.execPtyDec n s
  | .ptyEnc k => Sys2Proof.Machine.execPtyEnc k s
  | .asmConnUndir n => Sys2Proof.Machine.execAsmConnUndir n s
  | .asmConnDir => Sys2Proof.Machine.execAsmConnDir s
  | .asmNonconnUndir n => Sys2Proof.Machine.execAsmNonconnUndir n s
  | .asmScanReq => Sys2Proof.Machine.execAsmScanReq s
  | .asmScanRsp => Sys2Proof.Machine.execAsmScanRsp s
  | .asmScannableUndir n => Sys2Proof.Machine.execAsmScannableUndir n s
  | .asmBeacon n => Sys2Proof.Machine.execAsmBeacon n s
  | .asmDiscoverable n => Sys2Proof.Machine.execAsmDiscoverable n s
  | .pduHeader => Sys2Proof.Machine.execPduHeader s
  | .pduPayload => Sys2Proof.Machine.execPduPayload s
  | .pduFrame => Sys2Proof.Machine.execPduFrame s

end Sys2Proof.Machine
end

