-- ==== Sys2Proof/Machine/Fetch.lean ====
section
/-! DEFINITION. How a command comes to run: the `cmd` beat, the order of checks of spec/60_exceptions.md R179, the reset
pulse (spec/70_reset_and_hazards.md R190), and offering a command at the port. There is no program counter: the host
presents the commands (spec/10_state.md R24). -/

namespace Sys2Proof.Machine

/-- A word that is no command is answered ILLEGAL; nothing else happens (R174, R71). -/
def execIllegal (s : State) : Host.Outcome State Fault Refusal := s.raise s .illegal

/-- Run the command in progress: decode the sampled word (R86) and execute it, or answer ILLEGAL. -/
def runWord (s : State) : Host.Outcome State Fault Refusal :=
  match decode s.word with
  | .command i => exec i s
  | .illegal _ => execIllegal s

/-- One step of the block: a reset pulse first (R190); with `FATAL = 1` nothing is accepted and there is no successor
(R176, R179); a command in progress goes on (R31); otherwise the next offered command is accepted and run as far as the
host's offers go (R7, R197); with none offered the block is idle and nothing changes (R24). -/
def cycle (s : State) : Host.Outcome State Fault Refusal :=
  if s.rst then .next s.applyReset
  else if s.fatal then .fault .fatalHalt
  else if s.busy then runWord s
  else
    match s.cmdQ with
    | [] => .next s
    | c :: rest => runWord (s.accept c rest)

/-- The most `out` beats one command sends: a frame of 2 + 37 bytes (R204). -/
def maxOutBeats : Nat := 39

/-- `s` with one command offered at the head of the `cmd` channel, so that the very next step accepts it: no reset pulse,
no fatal halt and no command in progress stand in its way, its address operands are the values last sampled at the two
ports, and the host is ready for its `out` beats and its response. -/
def State.offer (s : State) (w : Word) : State :=
  { s with
    rst := false, fatal := false, busy := false, cmdQ := ⟨w, s.opa, s.opb⟩ :: s.cmdQ,
    outTake := s.outTake + maxOutBeats, rspTake := s.rspTake + 1 }

end Sys2Proof.Machine
end

