-- ==== Sys2Proof/Machine/Step.lean ====
section
/-! DEFINITION. The step of the machine and the placing of one instruction, both calls into Machine/Fetch.lean. -/

namespace Sys2Proof.Machine

/-- One step (spec/00_scope.md R7: one command is one atomic step). -/
def step (s : State) : Host.Outcome State Fault Refusal := cycle s

/-- `s` with the instruction of the `nbits`-bit word `w` offered where the step takes its next command (log 12). -/
def State.withFetchWord (s : State) (nbits w : Nat) : State := s.offer (BitVec.ofNat 32 (w % 2 ^ nbits))

end Sys2Proof.Machine
end

