-- ==== Sys2Proof/Machine/Ports.lean ====
section
/-! DEFINITION. What the block's output pins show between steps (spec/10_state.md R29, R31, R32, R33; spec/30_encoding.md
R80, R81). They carry no state of their own: each is computed from the state. -/

namespace Sys2Proof.Machine

/-- Pin `pdu_valid`, equal to `PV` (R32). -/
def pinPduValid (s : State) : Bool := s.pv

/-- Pin `fatal`, equal to `FATAL` (R32). -/
def pinFatal (s : State) : Bool := s.fatal

/-- Pin `cmd_ready`: 0 with a command in progress (R31) and with a fatal halt (R176). DESIGN CHOICE (log 15): it is 1 in every
other state without reset, where R33 and R31 say only that it may be 1, and 0 with `rst = 1`, where the spec says only that no
beat happens (R30, R190). -/
def pinCmdReady (s : State) : Bool := !s.busy && !s.fatal && !s.rst

/-- The command in progress is an element-taking one whose declared sequence is not complete (R31 step 2). -/
def wantsAd (s : State) : Bool :=
  match decode s.word with
  | .illegal _ => false
  | .command i =>
    match i.nelem? with
    | none => false
    | some n => (adReadSeq n s.adTaken).isNone

/-- How many `out` beats the command in progress has still to send (R31 step 3, R78). -/
def outRemaining (s : State) : Nat :=
  match decode s.word with
  | .command .pduPayload => if s.pv then slotLen s - s.outSent else 0
  | .command .pduFrame => if s.pv then slotLen s + 2 - s.outSent else 0
  | _ => 0

/-- Pin `ad_ready`: 0 outside step 2 of an element-taking command (R31). DESIGN CHOICE (log 15): it is 1 throughout that step,
and `rst` does not lower it. -/
def pinAdReady (s : State) : Bool := s.busy && wantsAd s

/-- Pin `out_valid`: 0 outside step 3 of a command that emits (R31). DESIGN CHOICE (log 15): it is 1 throughout that step, and
`rst` does not lower it. -/
def pinOutValid (s : State) : Bool := s.busy && decide (0 < outRemaining s)

/-- Pin `rsp_valid`: the command in progress has only its response left (R31 step 4). DESIGN CHOICE (log 15): it is 1 as soon
as that is so, and `rst` does not lower it. -/
def pinRspValid (s : State) : Bool := s.busy && !wantsAd s && decide (outRemaining s = 0)

/-- The code of a status on the 3-bit pin `rsp_status`; 6 and 7 are never produced (R81). -/
def statusCode : Status → BitVec 3
  | .ok => 0
  | .capacity => 1
  | .unsupported => 2
  | .fatal => 3
  | .illegal => 4
  | .noPdu => 5

/-- Pins `out_byte` and `out_last` while `out_valid` is 1: the next beat, which does not change until it is taken (R30). -/
def pinOut (s : State) : Option OutBeat :=
  if pinOutValid s then
    match runWord { s with outTake := 1, rspTake := 0, outLog := [] } with
    | .next t => t.outLog.head?
    | .fault _ => none
    | .refused _ => none
  else none

/-- Pins `rsp_status` and `rsp_data` while `rsp_valid` is 1: the response of the command in progress (R30, R80). -/
def pinRsp (s : State) : Option (BitVec 3 × BitVec 16) :=
  if pinRspValid s then
    match runWord { s with rspTake := 1, rspLog := [] } with
    | .next t => t.rspLog.head?.map (fun r => (statusCode r.status, r.data))
    | .fault _ => none
    | .refused _ => none
  else none

end Sys2Proof.Machine
end

