-- ==== Sys2Proof/Safety.lean ====
section
/-! DEFINITION. The terms statements use: the invariants of spec/10_state.md R27, how a run ends (spec/70_reset_and_hazards.md
R205), and what the spec's own words say a command's stream, payload, header and answer are, written apart from the
operations of Machine/ so that a statement compares the two. -/

namespace Sys2Proof.Safety

open Sys2Proof.Machine

/-- R27: what holds of the slot whenever `PV = 1`. -/
structure SlotOk (s : State) : Prop where
  lenLow : 6 ≤ (s.phdr.extractLsb' 8 6).toNat
  lenHigh : (s.phdr.extractLsb' 8 6).toNat ≤ 37
  rsvdLow : s.phdr.extractLsb' 4 2 = 0
  rsvdHigh : s.phdr.extractLsb' 14 2 = 0
  kind : s.phdr.extractLsb' 0 4 ∈ [0b0000#4, 0b0001#4, 0b0010#4, 0b0110#4]
  directed : s.phdr.extractLsb' 0 4 = 0b0001#4 → (s.phdr.extractLsb' 8 6).toNat = 12
  rxAdd : s.phdr.extractLsb' 0 4 ≠ 0b0001#4 → s.phdr.getLsbD 7 = false
  tail : ∀ i, (s.phdr.extractLsb' 8 6).toNat ≤ i → i < 37 → s.pay.read i = 0

/-- The invariant of the machine: the buffer's canonical form, the cursor's bound (R23), the slot (R27), nothing of an
ended command left behind (R24), and no command in progress once halted (R176). -/
structure Inv (s : State) : Prop where
  payCanonical : s.pay.wf = true
  posBound : s.pos ≤ 37
  slot : s.pv = true → SlotOk s
  idle : s.busy = false → s.adTaken = [] ∧ s.outSent = 0
  halted : s.fatal = true → s.busy = false

/-- The host does nothing wrong and nothing is in the way of the next command: no reset pulse, not halted, idle. -/
structure Ready (s : State) : Prop where
  noReset : s.rst = false
  notFatal : s.fatal = false
  notBusy : s.busy = false
  noAdTaken : s.adTaken = []
  noOutSent : s.outSent = 0

/-- The answer `st / d` and nothing else: one `rsp` beat, and the command is over (R31, R80). -/
def answered (s : State) (st : Status) (d : BitVec 16) : State :=
  { s with
    busy := false, adTaken := [], outSent := 0,
    rspLog := s.rspLog ++ [{ status := st, data := d }], rspTake := s.rspTake - 1 }

/-- The `ad` bytes of an element sequence: for each element one length byte, then its bytes (R51, R76). -/
def frameElems : List (List Byte) → List Byte
  | [] => []
  | e :: es => BitVec.ofNat 8 e.length :: (e ++ frameElems es)

/-- The number of bytes of an element sequence, `S` of R143. -/
def elemTotal (es : List (List Byte)) : Nat := (es.map List.length).sum

/-- `zext_16(code) | (tx << 6) | (rx << 7) | (len << 8)` (R112, R143). -/
def packHeader (code : Nibble) (tx rx : Bool) (len : Nat) : Header :=
  code.setWidth 16 ||| ((BitVec.ofBool tx).setWidth 16 <<< 6) ||| ((BitVec.ofBool rx).setWidth 16 <<< 7)
    ||| (BitVec.ofNat 16 len <<< 8)

/-- Bytes as `out` beats, `out_last` on the last one only (R52). -/
def lastMarked (bs : List Byte) : List OutBeat :=
  (List.range bs.length).map (fun i => { byte := bs.getD i 0, last := decide (i + 1 = bs.length) })

/-- The first `n` bytes of the payload buffer. -/
def payBytes (s : State) (n : Nat) : List Byte := (List.range n).map s.pay.read

/-- What R134 to R138 with R132, R140 and R143 say of an element-taking command `i` that declares `n` elements, builds the
kind with code `code` and puts `first` before the caller's elements, of which `room` bytes fit. The whole declared
sequence is taken in either case. -/
def Assembles (i : Instr) (n : Nat) (code : Nibble) (first : List Byte) (room : Nat) : Prop :=
  ∀ (s : State) (es : List (List Byte)) (rest : List Byte),
    es.length = n → (∀ e ∈ es, e.length ≤ 255) → s.adTaken ++ s.adQ = frameElems es ++ rest → 0 < s.rspTake →
    (elemTotal es ≤ room →
      ∃ pay, exec i s = .next (answered
          { s with
            adQ := rest, pay := pay, pos := 6 + first.length + elemTotal es, pv := true,
            phdr := packHeader code (s.opa.getLsbD 48) false (6 + first.length + elemTotal es) } .ok 0)
        ∧ ∀ a, a < 37 → Memory.read pay a = (addrBytes s.opa ++ first ++ es.flatten).getD a 0)
    ∧ (room < elemTotal es →
      ∃ pay phdr pos, exec i s = .next (answered
          { s with adQ := rest, pay := pay, phdr := phdr, pos := pos, pv := false, fresh := s.fresh + 1 } .capacity 0))

/-- Run commands one after the other, as the host's sequence of R205, ignoring the ports. -/
def execAll : List Instr → State → Host.Outcome State Fault Refusal
  | [], s => .next s
  | i :: is, s =>
    match exec i s with
    | .next t => execAll is t
    | .fault f => .fault f
    | .refused r => .refused r

/-- Apply a function to the next state of an outcome. -/
def mapNext (f : State → State) : Host.Outcome State Fault Refusal → Host.Outcome State Fault Refusal
  | .next t => .next (f t)
  | .fault e => .fault e
  | .refused r => .refused r

/-- The commands of the header codec (R109). -/
def isHdr : Instr → Bool
  | .hdrNew _ | .hdrParse _ _ | .hdrBits | .hdrType | .hdrTxRnd | .hdrSetTx _ | .hdrRxRnd | .hdrSetRx _ | .hdrLen
  | .hdrSetLen _ => true
  | _ => false

/-- The five getters of the header codec (R109). -/
def isHdrGetter : Instr → Bool
  | .hdrBits | .hdrType | .hdrTxRnd | .hdrRxRnd | .hdrLen => true
  | _ => false

/-- The six commands that write the slot (R21, R40). -/
def isAssembling : Instr → Bool
  | .asmConnUndir _ | .asmConnDir | .asmNonconnUndir _ | .asmScannableUndir _ | .asmBeacon _ | .asmDiscoverable _ => true
  | _ => false

/-- The commands that read address operand A (formats FA and FAB of R68, R70). -/
def readsOpa (i : Instr) : Bool := isAssembling i

/-- The three readers of the slot (R164). -/
def isPdu : Instr → Bool
  | .pduHeader | .pduPayload | .pduFrame => true
  | _ => false

/-- Two states a host cannot tell apart, now or later: they may differ in `POS`, in `PHDR` and `PAY` while `PV = 0`, in the
bytes of `PAY` beyond the length, in the sampled ports of an ended command, and in the free values still to be drawn
(R23, R33, R199, U3, U4). -/
structure SameVisible (s t : State) : Prop where
  h : s.h = t.h
  pv : s.pv = t.pv
  phdr : s.pv = true → s.phdr = t.phdr
  pay : s.pv = true → ∀ i, i < (s.phdr.extractLsb' 8 6).toNat → s.pay.read i = t.pay.read i
  fatal : s.fatal = t.fatal
  busy : s.busy = t.busy
  sampled : s.busy = true → s.word = t.word ∧ s.opa = t.opa ∧ s.opb = t.opb
  adTaken : s.adTaken = t.adTaken
  outSent : s.outSent = t.outSent
  rst : s.rst = t.rst
  cmdQ : s.cmdQ = t.cmdQ
  adQ : s.adQ = t.adQ
  outTake : s.outTake = t.outTake
  rspTake : s.rspTake = t.rspTake
  outLog : s.outLog = t.outLog
  rspLog : s.rspLog = t.rspLog

/-- Two outcomes a host cannot tell apart. -/
def SameOutcome : Host.Outcome State Fault Refusal → Host.Outcome State Fault Refusal → Prop
  | .next s, .next t => SameVisible s t
  | .fault f, .fault g => f = g
  | .refused r, .refused q => r = q
  | _, _ => False

/-- The run has ended well: every offered command is answered and the block is not halted (R205). -/
def EndedWell (s : State) : Prop := s.cmdQ = [] ∧ s.busy = false ∧ s.fatal = false

/-- The run has gone wrong (R205). -/
def GoneWrong (s : State) : Prop := s.fatal = true

/-- The run hangs: a command is in progress and the host's offers do not let it go on (R205, R197). -/
def Hangs (s : State) : Prop := s.busy = true ∧ step s = .next s

/-- What a run shows (R205): the responses, the bytes emitted, `H`, `PV`, and the PDU if one is held. -/
def observe (s : State) : List Response × List OutBeat × Header × Bool × Option (Header × List Byte) :=
  (s.rspLog, s.outLog, s.h, s.pv, if s.pv then some (s.phdr, payBytes s (slotLen s)) else none)

end Sys2Proof.Safety
end

