-- ==== Sys2Proof/Certificates/Slice0/Obligations.lean ====
section
/-! DEFINITION. The statements for the provers, from the numbered rules of spec/. Each docstring names the rules. Where a
statement says `answered s st d`, the machine has given the one response `st / d`, the command is over, and every other
field is as the record before it says: an equation with such a state is the result, the frame and the completion in one. -/

open Sys2Proof Sys2Proof.Machine Sys2Proof.Safety

/-! ## Encoding -/

/-- Decoding the word of any well-formed command gives the command back, every operand at every value (R68, R69, R70). -/
def Obligations.DecodeInvertsEncode : Prop :=
  ∀ i : Instr, i.wellFormed = true → decode (encode i) = .command i

/-- Every word that decodes to a command is the word of exactly that command, and the command is well-formed: no word
decodes two ways and no bit is ignored (R72, R73). -/
def Obligations.EncodeInvertsDecode : Prop :=
  ∀ (w : Word) (i : Instr), decode w = .command i → i.wellFormed = true ∧ encode i = w

/-- The decoder is the opcode map: a word is a command exactly when a row of R70 covers it, the command has that row's
mnemonic, and no two rows cover one word (R70, R71, R73). -/
def Obligations.DecoderIsTheOpcodeMap : Prop :=
  opcodeTable.length = 23
  ∧ (∀ w : Word, (∃ i, decode w = .command i) ↔ ∃ r ∈ opcodeTable, w &&& r.mask = r.pattern)
  ∧ (∀ (w : Word) (i : Instr), decode w = .command i →
      ∀ r ∈ opcodeTable, w &&& r.mask = r.pattern → r.mnemonic = i.mnemonic)
  ∧ (∀ (w : Word), ∀ r ∈ opcodeTable, ∀ q ∈ opcodeTable,
      w &&& r.mask = r.pattern → w &&& q.mask = q.pattern → r = q)

/-- The decode order of R86 says why a word is illegal. -/
def Obligations.IllegalWordsRefusedInOrder : Prop :=
  ∀ w : Word,
    (w.extractLsb' 24 8 ≠ 0 → decode w = .illegal .zeroField)
    ∧ (w.extractLsb' 24 8 = 0 → (∀ r ∈ opcodeTable, r.pattern.extractLsb' 0 8 ≠ w.extractLsb' 0 8) →
        decode w = .illegal .unknownOpcode)
    ∧ (w.extractLsb' 24 8 = 0 → ∀ r ∈ opcodeTable, r.pattern.extractLsb' 0 8 = w.extractLsb' 0 8 →
        w &&& r.mask ≠ r.pattern → decode w = .illegal .mustBeZero)

/-- Words written out from R69 and R70 decode to the commands they stand for; the last is illegal (R72's example). -/
def Obligations.WrittenOutWordsDecode : Prop :=
  decode 0x00000610 = .command (.hdrNew 0x06) ∧ decode 0x00000211 = .command (.hdrParse 0x02 0x00)
  ∧ decode 0x00002619 = .command (.hdrSetLen 38) ∧ decode 0x00001921 = .command (.ptyEnc 0x19)
  ∧ decode 0x00000142 = .command (.asmNonconnUndir 1) ∧ decode 0x00000052 = .command .pduFrame
  ∧ decode 0x00012619 = .illegal .mustBeZero

/-- R74: six raw bytes, `a_i` at bits `8i+7:8i`, and the random flag at bit 48 make up the whole operand. -/
def Obligations.AddressOperandLayout : Prop :=
  ∀ (rnd : Bool) (a0 a1 a2 a3 a4 a5 : Byte) (a : AddrOperand),
    a = BitVec.ofNat 49 (a0.toNat + 2 ^ 8 * a1.toNat + 2 ^ 16 * a2.toNat + 2 ^ 24 * a3.toNat + 2 ^ 32 * a4.toNat
      + 2 ^ 40 * a5.toNat + 2 ^ 48 * rnd.toNat) →
    addrBytes a = [a0, a1, a2, a3, a4, a5] ∧ addrRnd a = rnd

/-! ## Header codec -/

/-- R100. -/
def Obligations.HdrNewBuildsHeader : Prop :=
  (∀ k : KindRep, decode (BitVec.ofNat 32 (0x10 + 256 * k.toNat)) = .command (.hdrNew k))
  ∧ ∀ (k : KindRep) (s : State), 0 < s.rspTake →
      ∃ h : Header, exec (.hdrNew k) s = .next (answered { s with h := h } .ok 0)
        ∧ h.extractLsb' 0 4 = k.extractLsb' 0 4 ∧ ∀ i, 4 ≤ i → h.getLsbD i = false

/-- R101: the first byte becomes bits 7:0, the second bits 15:8, nothing is masked or checked. -/
def Obligations.HdrParseLoadsBothBytes : Prop :=
  (∀ b0 b1 : Byte, decode (BitVec.ofNat 32 (0x11 + 256 * b0.toNat + 65536 * b1.toNat)) = .command (.hdrParse b0 b1))
  ∧ ∀ (b0 b1 : Byte) (s : State), 0 < s.rspTake →
      ∃ h : Header, exec (.hdrParse b0 b1) s = .next (answered { s with h := h } .ok 0)
        ∧ h.extractLsb' 0 8 = b0 ∧ h.extractLsb' 8 8 = b1

/-- R102: all 16 bits, reserved bits as they are. -/
def Obligations.HdrBitsReturnsAllBits : Prop :=
  decode 0x00000012 = .command .hdrBits
  ∧ ∀ s : State, 0 < s.rspTake → exec .hdrBits s = .next (answered s .ok s.h)

/-- R103: `Dec(h[3:0])`: a named kind up to 6, the unknown kind with its nibble from 7 on, never an error. -/
def Obligations.HdrTypeReturnsKind : Prop :=
  decode 0x00000013 = .command .hdrType
  ∧ ∀ s : State, 0 < s.rspTake →
      ((s.h.extractLsb' 0 4).toNat ≤ 6 →
        exec .hdrType s = .next (answered s .ok ((s.h.extractLsb' 0 4).setWidth 16)))
      ∧ (7 ≤ (s.h.extractLsb' 0 4).toNat →
        exec .hdrType s = .next (answered s .ok (0x0010#16 ||| (s.h.extractLsb' 0 4).setWidth 16)))

/-- R104. -/
def Obligations.HdrTxRndReturnsBit6 : Prop :=
  decode 0x00000014 = .command .hdrTxRnd
  ∧ ∀ s : State, 0 < s.rspTake →
      exec .hdrTxRnd s = .next (answered s .ok (if s.h.getLsbD 6 then 1 else 0))

/-- R105: bit 6 takes the operand, the other 15 bits keep theirs. -/
def Obligations.HdrSetTxWritesBit6Only : Prop :=
  (∀ b : Bool, decode (BitVec.ofNat 32 (0x15 + 256 * b.toNat)) = .command (.hdrSetTx b))
  ∧ ∀ (b : Bool) (s : State), 0 < s.rspTake →
      ∃ h : Header, exec (.hdrSetTx b) s = .next (answered { s with h := h } .ok 0)
        ∧ h.getLsbD 6 = b ∧ ∀ i, i ≠ 6 → h.getLsbD i = s.h.getLsbD i

/-- R106. -/
def Obligations.HdrRxRndReturnsBit7 : Prop :=
  decode 0x00000016 = .command .hdrRxRnd
  ∧ ∀ s : State, 0 < s.rspTake →
      exec .hdrRxRnd s = .next (answered s .ok (if s.h.getLsbD 7 then 1 else 0))

/-- R107: bit 7 takes the operand, the other 15 bits keep theirs. -/
def Obligations.HdrSetRxWritesBit7Only : Prop :=
  (∀ b : Bool, decode (BitVec.ofNat 32 (0x17 + 256 * b.toNat)) = .command (.hdrSetRx b))
  ∧ ∀ (b : Bool) (s : State), 0 < s.rspTake →
      ∃ h : Header, exec (.hdrSetRx b) s = .next (answered { s with h := h } .ok 0)
        ∧ h.getLsbD 7 = b ∧ ∀ i, i ≠ 7 → h.getLsbD i = s.h.getLsbD i

/-- R108: any of the 64 values, without validation; bits 15:14 do not leak. -/
def Obligations.HdrLenReturnsField : Prop :=
  decode 0x00000018 = .command .hdrLen
  ∧ ∀ s : State, 0 < s.rspTake →
      exec .hdrLen s = .next (answered s .ok (BitVec.ofNat 16 (s.h.toNat / 256 % 64)))

/-- R110: in range the six length bits are replaced and the rest kept; out of range nothing but FATAL changes, the refused
length is answered, and nothing is accepted any more. That the refusal is a next state and the step after it is the fault
fatalHalt is the model's reading of R176 and R183 (log 6, DEDUCED). -/
def Obligations.HdrSetLenReplacesOrHalts : Prop :=
  (∀ n, n ≤ 255 → decode (BitVec.ofNat 32 (0x19 + 256 * n)) = .command (.hdrSetLen n))
  ∧ (∀ (n : Nat) (s : State), 6 ≤ n → n ≤ 37 → 0 < s.rspTake →
      ∃ h : Header, exec (.hdrSetLen n) s = .next (answered { s with h := h } .ok 0)
        ∧ (h.extractLsb' 8 6).toNat = n ∧ ∀ i, i < 8 ∨ 14 ≤ i → h.getLsbD i = s.h.getLsbD i)
  ∧ (∀ (n : Nat) (s : State), n < 6 ∨ 37 < n → 0 < s.rspTake →
      exec (.hdrSetLen n) s = .next (answered { s with fatal := true } .fatal (BitVec.ofNat 16 n)))
  ∧ ∀ t : State, t.fatal = true → t.rst = false → step t = .fault .fatalHalt

/-- R109: no header command takes an `ad` byte, sends an `out` byte or touches the slot; only HDR.SETLEN can set FATAL; the
five getters change nothing but the answer; none answers CAPACITY, UNSUPPORTED or NO_PDU. -/
def Obligations.HdrCommandsTouchHeaderOnly : Prop :=
  ∀ (i : Instr) (s t : State), isHdr i = true → exec i s = .next t →
    t.pv = s.pv ∧ t.phdr = s.phdr ∧ (∀ a, t.pay.read a = s.pay.read a) ∧ t.pos = s.pos
    ∧ t.adQ = s.adQ ∧ t.outLog = s.outLog ∧ t.outTake = s.outTake ∧ t.cmdQ = s.cmdQ
    ∧ t.word = s.word ∧ t.opa = s.opa ∧ t.opb = s.opb
    ∧ (t.fatal ≠ s.fatal → ∃ n, i = .hdrSetLen n) ∧ (isHdrGetter i = true → t.h = s.h)
    ∧ (t.rspLog = s.rspLog ∨ ∃ r : Response, t.rspLog = s.rspLog ++ [r] ∧ (r.status = .ok ∨ r.status = .fatal))

/-- R111: the two bytes of the value HDR.BITS returns, parsed, restore `H` exactly, reserved bits included. -/
def Obligations.HeaderBytesRoundTrip : Prop :=
  ∀ (s u : State), 0 < s.rspTake → 0 < u.rspTake →
    ∃ d : BitVec 16, exec .hdrBits s = .next (answered s .ok d)
      ∧ exec (.hdrParse (d.extractLsb' 0 8) (d.extractLsb' 8 8)) u = .next (answered { u with h := s.h } .ok 0)

/-- R112: after HDR.NEW the three setters give one header, in any order. -/
def Obligations.SettersCommute : Prop :=
  ∀ (k : KindRep) (tx rx : Bool) (n : Nat) (s : State) (is : List Instr), 6 ≤ n → n ≤ 37 → 4 ≤ s.rspTake →
    List.Perm is [.hdrSetTx tx, .hdrSetRx rx, .hdrSetLen n] →
    ∃ t, execAll (.hdrNew k :: is) s = .next t
      ∧ t.h = packHeader (k.extractLsb' 0 4) tx rx n ∧ t.fatal = s.fatal

/-! ## Type conversion -/

/-- R120: codes 0 to 6 give the named kind, 7 to 15 the unknown kind with its nibble; no state is written. -/
def Obligations.PtyDecGivesKind : Prop :=
  (∀ n : Nibble, decode (BitVec.ofNat 32 (0x20 + 256 * n.toNat)) = .command (.ptyDec n))
  ∧ ∀ (n : Nibble) (s : State), 0 < s.rspTake →
      exec (.ptyDec n) s = .next (answered s .ok (if n.toNat ≤ 6 then BitVec.ofNat 16 n.toNat else BitVec.ofNat 16 (16 + n.toNat)))

/-- R121: the low four bits of any of the 32 representations; `unk` has no effect; no state is written. -/
def Obligations.PtyEncGivesNibble : Prop :=
  (∀ k : KindRep, decode (BitVec.ofNat 32 (0x21 + 256 * k.toNat)) = .command (.ptyEnc k))
  ∧ ∀ (k : KindRep) (s : State), 0 < s.rspTake →
      exec (.ptyEnc k) s = .next (answered s .ok (BitVec.ofNat 16 (k.toNat % 16)))

/-- The laws of R67, through the two commands: encoding what PTY.DEC answers returns the nibble, and it is the kind R64
names; decoding what PTY.ENC answers returns `K` exactly when `K` is canonical. -/
def Obligations.KindConversionsInvert : Prop :=
  (∀ (n : Nibble) (s : State), 0 < s.rspTake →
    ∃ k : KindRep, exec (.ptyDec n) s = .next (answered s .ok (k.setWidth 16)) ∧ k = (Kind.ofNibble n).rep
      ∧ exec (.ptyEnc k) s = .next (answered s .ok (n.setWidth 16)))
  ∧ (∀ (k : KindRep) (s : State), 0 < s.rspTake →
    ∃ n : Nibble, exec (.ptyEnc k) s = .next (answered s .ok (n.setWidth 16))
      ∧ (exec (.ptyDec n) s = .next (answered s .ok (k.setWidth 16)) ↔ (k.getLsbD 4 = true ↔ 7 ≤ k.toNat % 16)))

/-! ## Memory and streams -/

/-- R44, R45: after bytes are written at rising indices, each reads back; every other index reads as before; a read past
index 36 is not given. -/
def Obligations.MemReadGivesWhatWasWritten : Prop :=
  ∀ (s : State) (a : Nat) (bs : List Byte), a + bs.length ≤ 37 →
    (s.memWrite a bs).memRead a bs.length = some bs
    ∧ (∀ x, x < a ∨ a + bs.length ≤ x → (s.memWrite a bs).pay.read x = s.pay.read x)
    ∧ (∀ b n, b + n ≤ 37 → s.memRead b n = some ((List.range n).map (fun j => s.pay.read (b + j))))
    ∧ (∀ b n, 37 < b + n → s.memRead b n = none)

/-- R47, R48: a slice that fits is written whole at the cursor, which advances by its length; one that does not is not
written at all. -/
def Obligations.WriterIsAllOrNothing : Prop :=
  ∀ (s : State) (bs : List Byte), s.pos ≤ 37 →
    s.spaceLeft = 37 - s.pos
    ∧ (37 - s.pos < bs.length → s.writeSlice bs = none)
    ∧ (bs.length ≤ 37 - s.pos → ∃ t, s.writeSlice bs = some t ∧ t = { s with pay := t.pay, pos := s.pos + bs.length }
        ∧ (∀ i, i < bs.length → t.pay.read (s.pos + i) = bs.getD i 0)
        ∧ (∀ x, x < s.pos ∨ s.pos + bs.length ≤ x → t.pay.read x = s.pay.read x))

/-- R51: a framed sequence is read back element by element and exactly its `n + L_0 + ...` bytes are taken; while any of
them is missing the sequence is not complete. -/
def Obligations.ElementSequenceReadWhole : Prop :=
  ∀ (es : List (List Byte)), (∀ e ∈ es, e.length ≤ 255) →
    (frameElems es).length = es.length + elemTotal es
    ∧ (∀ rest, adReadSeq es.length (frameElems es ++ rest) = some (es, rest))
    ∧ (∀ k, k < (frameElems es).length → adReadSeq es.length ((frameElems es).take k) = none)

/-! ## Assembler -/

/-- R134, R135, R136 (with R132, R140, R143): the three plain constructors; 31 element bytes fit. Two clauses are the model's:
the zero bytes beyond the length (log 10, DEDUCED from R27 and R132; a claim about the hardware's PDU uses only the bytes
within the length, R199), and, on CAPACITY, the advance of the model's own counter of free values (log 3). -/
def Obligations.PlainConstructorsAssemble : Prop :=
  (∀ n, n ≤ 255 → decode (BitVec.ofNat 32 (0x40 + 256 * n)) = .command (.asmConnUndir n)
    ∧ decode (BitVec.ofNat 32 (0x42 + 256 * n)) = .command (.asmNonconnUndir n)
    ∧ decode (BitVec.ofNat 32 (0x46 + 256 * n)) = .command (.asmScannableUndir n))
  ∧ ∀ n, Assembles (.asmConnUndir n) n 0b0000 [] 31 ∧ Assembles (.asmNonconnUndir n) n 0b0010 [] 31
    ∧ Assembles (.asmScannableUndir n) n 0b0110 [] 31

/-- R133, R137, R138: the two constructors that put a Flags element first; 28 element bytes fit. It holds for every value
of the three open parameters. Two clauses are the model's: the zero bytes beyond the length (log 10, DEDUCED), and, on
CAPACITY, the advance of the model's own counter of free values (log 3). -/
def Obligations.FlaggedConstructorsAssemble : Prop :=
  (∀ n, n ≤ 255 → decode (BitVec.ofNat 32 (0x48 + 256 * n)) = .command (.asmBeacon n)
    ∧ decode (BitVec.ofNat 32 (0x49 + 256 * n)) = .command (.asmDiscoverable n))
  ∧ ∀ n, Assembles (.asmBeacon n) n 0b0010 [0x02, Config.flagsAdType, Config.flagsBroadcast] 28
    ∧ Assembles (.asmDiscoverable n) n 0b0000 [0x02, Config.flagsAdType, Config.flagsDiscoverable] 28

/-- R139: it cannot fail; length 12, both address flags, the twelve address bytes. The zero bytes beyond them are the model's
(log 10, DEDUCED from R27 and R139; a claim about the hardware's PDU uses only the twelve, R199). -/
def Obligations.ConnDirAssembles : Prop :=
  decode 0x00000041 = .command .asmConnDir
  ∧ ∀ s : State, 0 < s.rspTake →
      ∃ pay pos, exec .asmConnDir s = .next (answered
          { s with
            pay := pay, pos := pos, pv := true,
            phdr := packHeader 0b0001 (s.opa.getLsbD 48) (s.opb.getLsbD 48) 12 } .ok 0)
        ∧ ∀ a, a < 37 → Memory.read pay a = (addrBytes s.opa ++ addrBytes s.opb).getD a 0

/-- R141, R142: always UNSUPPORTED, nothing read or written. -/
def Obligations.ScanConstructorsUnsupported : Prop :=
  decode 0x00000043 = .command .asmScanReq ∧ decode 0x00000044 = .command .asmScanRsp
  ∧ ∀ s : State, 0 < s.rspTake →
      exec .asmScanReq s = .next (answered s .unsupported 0) ∧ exec .asmScanRsp s = .next (answered s .unsupported 0)

/-- R143: what each of the five element-taking constructors makes of its elements depends only on their concatenation, not
on the boundaries. -/
def Obligations.AssemblyIgnoresBoundaries : Prop :=
  ∀ mk ∈ [Instr.asmConnUndir, Instr.asmNonconnUndir, Instr.asmScannableUndir, Instr.asmBeacon, Instr.asmDiscoverable],
    ∀ (s : State) (es fs : List (List Byte)), (∀ e ∈ es, e.length ≤ 255) → (∀ f ∈ fs, f.length ≤ 255) →
      es.flatten = fs.flatten → s.adTaken = [] → 0 < s.rspTake →
      ∃ t u, exec (mk es.length) { s with adQ := frameElems es } = .next t
        ∧ exec (mk fs.length) { s with adQ := frameElems fs } = .next u
        ∧ t.rspLog = u.rspLog ∧ t.pv = u.pv
        ∧ (t.pv = true → t.phdr = u.phdr ∧ payBytes t (slotLen t) = payBytes u (slotLen u))

/-- R137, R138 (corner cases): BEACON and DISCOVERABLE make the PDU that NONCONN_UNDIR and CONN_UNDIR make of the same
elements with the Flags element in front. -/
def Obligations.FlaggedEqualsPlainWithFlags : Prop :=
  ∀ (s : State) (es : List (List Byte)), (∀ e ∈ es, e.length ≤ 255) → s.adTaken = [] → 0 < s.rspTake →
    exec (.asmBeacon es.length) { s with adQ := frameElems es }
      = exec (.asmNonconnUndir (es.length + 1))
          { s with adQ := frameElems ([0x02, Config.flagsAdType, Config.flagsBroadcast] :: es) }
    ∧ exec (.asmDiscoverable es.length) { s with adQ := frameElems es }
      = exec (.asmConnUndir (es.length + 1))
          { s with adQ := frameElems ([0x02, Config.flagsAdType, Config.flagsDiscoverable] :: es) }

/-- R163 with R132, R139, R143, R162: whatever any of the six assembling commands accepts, PDU.FRAME then emits as the two
header bytes, low byte first, and the payload, with `out_last` on the last. For the five element-taking commands the payload
is the address, the mandatory Flags element where there is one, and the elements; what the host has offered behind them stays.
For ASM.CONN_DIR it is the two addresses. -/
def Obligations.FrameOfAssembledPdu : Prop :=
  (∀ (mk : Nat → Instr) (code : Byte) (first : List Byte),
    (mk, code, first) ∈
      [(Instr.asmConnUndir, 0x00, []), (Instr.asmNonconnUndir, 0x02, []), (Instr.asmScannableUndir, 0x06, []),
       (Instr.asmBeacon, 0x02, [0x02, Config.flagsAdType, Config.flagsBroadcast]),
       (Instr.asmDiscoverable, 0x00, [0x02, Config.flagsAdType, Config.flagsDiscoverable])] →
    ∀ (s : State) (es : List (List Byte)) (rest : List Byte), (∀ e ∈ es, e.length ≤ 255) →
      first.length + elemTotal es ≤ 31 → s.adTaken ++ s.adQ = frameElems es ++ rest → 2 ≤ s.rspTake → 39 ≤ s.outTake →
      ∃ t u, exec (mk es.length) s = .next t ∧ exec .pduFrame t = .next u ∧ u.adQ = rest
        ∧ u.outLog = s.outLog ++ lastMarked
            ([code ||| (if s.opa.getLsbD 48 then 0x40 else 0), BitVec.ofNat 8 (6 + first.length + elemTotal es)]
              ++ addrBytes s.opa ++ first ++ es.flatten)
        ∧ u.rspLog = s.rspLog ++ [{ status := .ok, data := 0 },
            { status := .ok, data := BitVec.ofNat 16 (8 + first.length + elemTotal es) }])
  ∧ ∀ s : State, 2 ≤ s.rspTake → 39 ≤ s.outTake →
      ∃ t u, exec .asmConnDir s = .next t ∧ exec .pduFrame t = .next u ∧ u.adQ = s.adQ
        ∧ u.outLog = s.outLog ++ lastMarked
            ([0x01 ||| (if s.opa.getLsbD 48 then 0x40 else 0) ||| (if s.opb.getLsbD 48 then 0x80 else 0), 12]
              ++ addrBytes s.opa ++ addrBytes s.opb)
        ∧ u.rspLog = s.rspLog ++ [{ status := .ok, data := 0 }, { status := .ok, data := 14 }]

/-- R181: retrying a failing assembly with identical inputs yields the identical failure. -/
def Obligations.FailedAssemblyFailsAgain : Prop :=
  ∀ (i : Instr) (s t : State), isAssembling i = true → exec i s = .next t →
    t.rspLog = s.rspLog ++ [{ status := .capacity, data := 0 }] →
    t.pv = false ∧ ∃ u, exec i { t with adTaken := s.adTaken, adQ := s.adQ, rspTake := s.rspTake } = .next u
      ∧ u.rspLog = t.rspLog ++ [{ status := .capacity, data := 0 }] ∧ u.pv = false ∧ u.adQ = t.adQ

/-! ## Buffer readers -/

/-- R160: a copy of the header; nothing else changes. -/
def Obligations.PduHeaderReturnsCopy : Prop :=
  decode 0x00000050 = .command .pduHeader
  ∧ ∀ s : State, 0 < s.rspTake →
      (s.pv = true → exec .pduHeader s = .next (answered s .ok s.phdr))
      ∧ (s.pv = false → exec .pduHeader s = .next (answered s .noPdu 0))

/-- R161: exactly the first `PHDR[13:8]` bytes, `out_last` on the last, and their number. -/
def Obligations.PduPayloadEmitsPayload : Prop :=
  decode 0x00000051 = .command .pduPayload
  ∧ ∀ (s : State) (len : Nat), len = (s.phdr.extractLsb' 8 6).toNat → s.outSent = 0 → 0 < s.rspTake →
      (s.pv = true → len ≤ 37 → len ≤ s.outTake →
        exec .pduPayload s = .next (answered
          { s with outLog := s.outLog ++ lastMarked (payBytes s len), outTake := s.outTake - len }
          .ok (BitVec.ofNat 16 len)))
      ∧ (s.pv = false → exec .pduPayload s = .next (answered s .noPdu 0))

/-- R162, R163: the header low byte, the header high byte, the payload, and the number of octets. -/
def Obligations.PduFrameEmitsFrame : Prop :=
  decode 0x00000052 = .command .pduFrame
  ∧ ∀ (s : State) (len : Nat), len = (s.phdr.extractLsb' 8 6).toNat → s.outSent = 0 → 0 < s.rspTake →
      (s.pv = true → len ≤ 37 → len + 2 ≤ s.outTake →
        exec .pduFrame s = .next (answered
          { s with
            outLog := s.outLog ++ lastMarked ([s.phdr.extractLsb' 0 8, s.phdr.extractLsb' 8 8] ++ payBytes s len),
            outTake := s.outTake - (len + 2) }
          .ok (BitVec.ofNat 16 (len + 2))))
      ∧ (s.pv = false → exec .pduFrame s = .next (answered s .noPdu 0))

/-- The model's choice (log 5): in a state no run reaches, a stored length above 37 names an index of `PAY` that does not
exist (R41, R44), and the two readers of the bytes stop by name. -/
def Obligations.ReadersStopPastTheBuffer : Prop :=
  ∀ (s : State), s.pv = true → 37 < (s.phdr.extractLsb' 8 6).toNat →
    exec .pduPayload s = .fault (.payIndex (s.phdr.extractLsb' 8 6).toNat)
    ∧ exec .pduFrame s = .fault (.payIndex (s.phdr.extractLsb' 8 6).toNat)

/-- R164: the readers write no state, take no `ad` byte, and a second reading of a held PDU emits the same bytes. -/
def Obligations.ReadingDoesNotConsume : Prop :=
  ∀ (i : Instr) (s t : State), isPdu i = true → exec i s = .next t →
    t.h = s.h ∧ t.pv = s.pv ∧ t.phdr = s.phdr ∧ (∀ a, t.pay.read a = s.pay.read a) ∧ t.fatal = s.fatal ∧ t.pos = s.pos
    ∧ t.adQ = s.adQ ∧ t.cmdQ = s.cmdQ
    ∧ (s.busy = true → t.busy = false → s.outSent = 0 →
        ∃ beats, t.outLog = s.outLog ++ beats
          ∧ ∃ u, exec i { t with rspTake := s.rspTake, outTake := s.outTake } = .next u ∧ u.outLog = t.outLog ++ beats)

/-! ## Whole-machine rules -/

/-- R20: no command outside the header codec writes `H`. -/
def Obligations.OnlyHeaderCommandsWriteH : Prop :=
  ∀ (i : Instr) (s t : State), exec i s = .next t → t.h ≠ s.h →
    (∃ k, i = .hdrNew k) ∨ (∃ b0 b1, i = .hdrParse b0 b1) ∨ (∃ b, i = .hdrSetTx b) ∨ (∃ b, i = .hdrSetRx b)
    ∨ ∃ n, i = .hdrSetLen n ∧ 6 ≤ n ∧ n ≤ 37

/-- R21, R25, R165: no command but the six assembling ones changes the slot, a held PDU is replaced whole or emptied, and
PV goes from 1 to 0 only by a capacity failure. -/
def Obligations.OnlyAssemblersWriteSlot : Prop :=
  ∀ (i : Instr) (s t : State), exec i s = .next t →
    (isAssembling i = false →
      t.pv = s.pv ∧ t.phdr = s.phdr ∧ (∀ a, t.pay.read a = s.pay.read a) ∧ t.pos = s.pos ∧ t.adQ = s.adQ)
    ∧ (t.pv = false → s.pv = true →
        i.nelem?.isSome = true ∧ t.rspLog = s.rspLog ++ [{ status := .capacity, data := 0 }])

/-- R22: FATAL is set by HDR.SETLEN out of range and by nothing else, and cleared only by reset. That the setting is a next
state, and that no step but a reset pulse leads out of the halt, is the model's reading (log 6, DEDUCED; log 4, DESIGN
CHOICE for the pulse). -/
def Obligations.OnlySetLenHalts : Prop :=
  (∀ (n : Nat) (s : State), n < 6 ∨ 37 < n → 0 < s.rspTake → ∃ t, exec (.hdrSetLen n) s = .next t ∧ t.fatal = true)
  ∧ ∀ s t : State, step s = .next t →
      (s.fatal = true → s.rst = true ∧ t.fatal = false)
      ∧ (s.fatal = false → t.fatal = true →
          ∃ w n, ((s.busy = true ∧ w = s.word) ∨ (s.busy = false ∧ ∃ c rest, s.cmdQ = c :: rest ∧ w = c.word))
            ∧ decode w = .command (.hdrSetLen n) ∧ (n < 6 ∨ 37 < n))

/-- R176: the fatal violation sets FATAL and sends its response; from then on the block accepts no command whatever the
host offers, nothing changes, and only reset leaves the state. That the violation is a next state and the step after it the
fault fatalHalt is the model's reading of R176 and R183 (log 6, DEDUCED), and so is a reset pulse that keeps what the host has
offered (log 4, DESIGN CHOICE). -/
def Obligations.HaltedAcceptsNothing : Prop :=
  (∀ (n : Nat) (s : State), n < 6 ∨ 37 < n → 0 < s.rspTake →
    exec (.hdrSetLen n) s = .next (answered { s with fatal := true } .fatal (BitVec.ofNat 16 n)))
  ∧ ∀ s : State, s.fatal = true →
    (s.rst = false → step s = .fault .fatalHalt ∧ pinCmdReady s = false ∧ pinFatal s = true ∧ pinPduValid s = s.pv)
    ∧ (s.rst = true → ∃ t, step s = .next t ∧ t.fatal = false ∧ t.cmdQ = s.cmdQ)

/-- R190, R192 with R33: a reset pulse gives the reset state whatever the block was doing; a command in progress is
abandoned without a response; no beat happens; what was sent stays sent and what was taken stays taken. -/
def Obligations.ResetAbandonsAndClears : Prop :=
  ∀ s : State, s.rst = true → ∃ t, step s = .next t
    ∧ t.h = 0x0000 ∧ t.pv = false ∧ t.fatal = false ∧ t.busy = false ∧ t.adTaken = [] ∧ t.outSent = 0 ∧ t.pos ≤ 37
    ∧ t.rspLog = s.rspLog ∧ t.outLog = s.outLog ∧ t.adQ = s.adQ ∧ t.cmdQ = s.cmdQ ∧ t.rst = false
    ∧ t.outTake = s.outTake ∧ t.rspTake = s.rspTake

/-- R33, R191, R193: the values the spec gives for reset, the pins, and that the first command may be any. Whatever word is
offered first (with its element sequence, where it takes one), one step answers it: a reader of the slot with NO_PDU, a getter
with the zero header's value 0, an assembling command with OK or CAPACITY. The model's choices in it: `cmd_ready` is 1 at
reset, where R33 says it may be (log 15), and the two words that withFetchWord places (log 12). -/
def Obligations.ResetStateIsUsable : Prop :=
  State.reset.h = 0x0000 ∧ State.reset.pv = false ∧ State.reset.fatal = false ∧ State.reset.busy = false
  ∧ pinCmdReady State.reset = true ∧ pinAdReady State.reset = false ∧ pinOutValid State.reset = false
  ∧ pinRspValid State.reset = false
  ∧ (∃ t u, step (State.reset.withFetchWord 32 0x00000050) = .next t
      ∧ t.rspLog = [{ status := .noPdu, data := 0 }]
      ∧ step (State.reset.withFetchWord 32 0x00000012) = .next u ∧ u.rspLog = [{ status := .ok, data := 0x0000 }])
  ∧ ∀ (c : CmdBeat) (q : List Byte),
      (∀ i n, decode c.word = .command i → i.nelem? = some n → (adReadSeq n q).isSome = true) →
      ∃ t r, step { State.reset with cmdQ := [c], adQ := q, rspTake := 1 } = .next t ∧ t.busy = false ∧ t.rspLog = [r]
        ∧ ∀ i, decode c.word = .command i →
            (isPdu i = true → r = { status := .noPdu, data := 0 })
            ∧ (isHdrGetter i = true → r = { status := .ok, data := 0 })
            ∧ (isAssembling i = true → r.status = .ok ∨ r.status = .capacity)

/-- The invariant holds at reset (R27, R33). The cursor's bound and the buffer's canonical form rest on the values the
model names for reset (log 2). -/
def Obligations.InvariantHoldsAtReset : Prop := Inv State.reset

/-- R27, R23: every step keeps the invariant, from every state that has it. -/
def Obligations.EveryStepKeepsInvariant : Prop :=
  ∀ s t : State, Inv s → step s = .next t → Inv t

/-- A step runs the decoded command: with a command offered and nothing in the way, the step is exec of what the decoder
reads, at the state in which the beat has been taken (R24, R30, R31 step 1). -/
def Obligations.StepRunsDecodedCommand : Prop :=
  ∀ (s : State) (c : CmdBeat) (rest : List CmdBeat) (i : Instr), Ready s → s.cmdQ = c :: rest →
    decode c.word = .command i →
    step s = exec i { s with cmdQ := rest, busy := true, word := c.word, opa := c.opa, opb := c.opb }

/-- A command that holds goes on where it was: the step is exec of the sampled word, no other command is accepted, and
with nothing offered and nothing in progress nothing changes (R24, R31, R197). -/
def Obligations.StepResumesOrIdles : Prop :=
  (∀ (s : State) (i : Instr), s.rst = false → s.fatal = false → s.busy = true → decode s.word = .command i →
    step s = exec i s ∧ pinCmdReady s = false)
  ∧ (∀ s : State, Ready s → s.cmdQ = [] → step s = .next s)

/-- R174, R71: a word that no row covers is accepted, answered ILLEGAL with data 0, and does nothing else, whatever the
host has offered on `ad`. That this is a next state, where R183 classes it a refusal that is reported, is the model's reading
of R10 and R174 (log 7, DEDUCED). -/
def Obligations.IllegalWordAnswered : Prop :=
  ∀ (s : State) (c : CmdBeat) (rest : List CmdBeat), Ready s → s.cmdQ = c :: rest → 0 < s.rspTake →
    (∀ r ∈ opcodeTable, c.word &&& r.mask ≠ r.pattern) →
    step s = .next (answered { s with cmdQ := rest, word := c.word, opa := c.opa, opb := c.opb } .illegal 0)

/-- R197, U15: where the host does not offer the whole declared sequence, the command takes what there is and holds: no
response, and nothing of the block's own state changes. -/
def Obligations.MissingElementBytesHold : Prop :=
  ∀ (i : Instr) (n : Nat) (s : State), i.nelem? = some n → adReadSeq n (s.adTaken ++ s.adQ) = none →
    exec i s = .next { s with adTaken := s.adTaken ++ s.adQ, adQ := [] }

/-- R197, U15: where the host does not take the response, no command changes anything of the block's own state. -/
def Obligations.UntakenResponseHolds : Prop :=
  ∀ (i : Instr) (s t : State), s.rspTake = 0 → exec i s = .next t →
    t.h = s.h ∧ t.pv = s.pv ∧ t.phdr = s.phdr ∧ t.pay = s.pay ∧ t.fatal = s.fatal ∧ t.pos = s.pos ∧ t.busy = s.busy
    ∧ t.rspLog = s.rspLog

/-- R7, R30: a command is one transaction however its beats are spread: what the host offers after a hold leads to the
same outcome as if it had been offered at once. -/
def Obligations.HoldLosesNothing : Prop :=
  ∀ (i : Instr) (s t : State) (bytes : List Byte) (beats resps : Nat), s.busy = true → exec i s = .next t →
    t.busy = true →
    exec i { t with adQ := t.adQ ++ bytes, outTake := t.outTake + beats, rspTake := t.rspTake + resps }
      = exec i { s with adQ := s.adQ ++ bytes, outTake := s.outTake + beats, rspTake := s.rspTake + resps }

/-- R31, R82, R170: a command in progress either still holds with no response, or is over with exactly one; the data is 0
with every status but OK and FATAL, and with FATAL it is the refused length. -/
def Obligations.OneResponsePerCommand : Prop :=
  ∀ (i : Instr) (s t : State), s.busy = true → exec i s = .next t →
    (t.busy = true ∧ t.rspLog = s.rspLog)
    ∨ (t.busy = false ∧ ∃ r : Response, t.rspLog = s.rspLog ++ [r]
        ∧ (r.status ≠ .ok → r.status ≠ .fatal → r.data = 0)
        ∧ (r.status = .fatal → ∃ n, i = .hdrSetLen n ∧ (n < 6 ∨ 37 < n) ∧ r.data = BitVec.ofNat 16 n))

/-- R204, R197: every offered word, legal or not, reaches its response in one step provided the host does its duties: it
has offered the declared sequence, takes the output (at most 39 beats) and takes the response. -/
def Obligations.EveryCommandIsAnswered : Prop :=
  ∀ (s : State) (c : CmdBeat) (rest : List CmdBeat), Inv s → Ready s → s.cmdQ = c :: rest → 39 ≤ s.outTake →
    0 < s.rspTake →
    (∀ i n, decode c.word = .command i → i.nelem? = some n → (adReadSeq n s.adQ).isSome = true) →
    ∃ t r beats, step s = .next t ∧ t.busy = false ∧ t.cmdQ = rest ∧ t.rspLog = s.rspLog ++ [r]
      ∧ t.outLog = s.outLog ++ beats ∧ beats.length ≤ 39 ∧ (beats ≠ [] → r.status = .ok)

/-- R33, R199, U3, U4: no result depends on what the spec leaves unspecified: from two states a host cannot tell apart,
the steps lead to two outcomes it cannot tell apart. -/
def Obligations.UnspecifiedStateNeverShows : Prop :=
  ∀ s t : State, SameVisible s t → SameOutcome (step s) (step t)

/-- R75: a command of format F0 or FI ignores both address ports, a command of format FA ignores `cmd_opb`. -/
def Obligations.UnusedOperandsIgnored : Prop :=
  ∀ (i : Instr) (s : State) (a b : AddrOperand),
    (readsOpa i = false → exec i { s with opa := a, opb := b } = mapNext (fun t => { t with opa := a, opb := b }) (exec i s))
    ∧ (i ≠ .asmConnDir → exec i { s with opb := b } = mapNext (fun t => { t with opb := b }) (exec i s))

/-- R31: the pins of a command in progress follow the order of its beats: `ad_ready` only while its declared sequence is
incomplete, `rsp_valid` only when neither `ad` nor `out` beats are left, never two of the three. That one of the three is 1
throughout a command, a reset pulse or not, is the model's choice (log 15). -/
def Obligations.PinsFollowBeatOrder : Prop :=
  ∀ s : State,
    (s.busy = false → pinAdReady s = false ∧ pinOutValid s = false ∧ pinRspValid s = false)
    ∧ (pinAdReady s = true → pinOutValid s = false ∧ pinRspValid s = false
        ∧ ∃ i n, decode s.word = .command i ∧ i.nelem? = some n ∧ adReadSeq n s.adTaken = none)
    ∧ (pinOutValid s = true → pinRspValid s = false ∧ s.pv = true
        ∧ (decode s.word = .command .pduPayload ∨ decode s.word = .command .pduFrame))
    ∧ (s.busy = true → pinCmdReady s = false ∧ (pinAdReady s = true ∨ pinOutValid s = true ∨ pinRspValid s = true))

/-- R29, R30, R80, R81: the six status codes, and the channel pins show what the next beat then carries. -/
def Obligations.ChannelPinsShowTheBeat : Prop :=
  statusCode .ok = 0 ∧ statusCode .capacity = 1 ∧ statusCode .unsupported = 2 ∧ statusCode .fatal = 3
  ∧ statusCode .illegal = 4 ∧ statusCode .noPdu = 5
  ∧ (∀ s t : State, pinRspValid s = true → 0 < s.rspTake → runWord s = .next t →
      ∃ st d, pinRsp s = some (statusCode st, d) ∧ t.rspLog = s.rspLog ++ [{ status := st, data := d }])
  ∧ (∀ s t : State, pinOutValid s = true → 0 < s.outTake → runWord s = .next t →
      ∃ b bs, pinOut s = some b ∧ t.outLog = s.outLog ++ b :: bs)
end

