-- ==== Sys2Proof/Laws/State.lean ====
section
/-! SUPPORT. One lemma per field per update of State, each true by rfl, so that no proof unfolds a record update. -/

namespace Sys2Proof.Laws

open Sys2Proof.Machine

variable (s : State)

/-! ### State.setH -/

@[simp] theorem setH_h (v : Header) : (s.setH v).h = v := rfl
@[simp] theorem setH_pv (v : Header) : (s.setH v).pv = s.pv := rfl
@[simp] theorem setH_phdr (v : Header) : (s.setH v).phdr = s.phdr := rfl
@[simp] theorem setH_pay (v : Header) : (s.setH v).pay = s.pay := rfl
@[simp] theorem setH_fatal (v : Header) : (s.setH v).fatal = s.fatal := rfl
@[simp] theorem setH_pos (v : Header) : (s.setH v).pos = s.pos := rfl
@[simp] theorem setH_busy (v : Header) : (s.setH v).busy = s.busy := rfl
@[simp] theorem setH_word (v : Header) : (s.setH v).word = s.word := rfl
@[simp] theorem setH_opa (v : Header) : (s.setH v).opa = s.opa := rfl
@[simp] theorem setH_opb (v : Header) : (s.setH v).opb = s.opb := rfl
@[simp] theorem setH_adTaken (v : Header) : (s.setH v).adTaken = s.adTaken := rfl
@[simp] theorem setH_outSent (v : Header) : (s.setH v).outSent = s.outSent := rfl
@[simp] theorem setH_rst (v : Header) : (s.setH v).rst = s.rst := rfl
@[simp] theorem setH_cmdQ (v : Header) : (s.setH v).cmdQ = s.cmdQ := rfl
@[simp] theorem setH_adQ (v : Header) : (s.setH v).adQ = s.adQ := rfl
@[simp] theorem setH_outTake (v : Header) : (s.setH v).outTake = s.outTake := rfl
@[simp] theorem setH_rspTake (v : Header) : (s.setH v).rspTake = s.rspTake := rfl
@[simp] theorem setH_outLog (v : Header) : (s.setH v).outLog = s.outLog := rfl
@[simp] theorem setH_rspLog (v : Header) : (s.setH v).rspLog = s.rspLog := rfl
@[simp] theorem setH_fresh (v : Header) : (s.setH v).fresh = s.fresh := rfl

/-! ### State.setFatal -/

@[simp] theorem setFatal_h : (s.setFatal).h = s.h := rfl
@[simp] theorem setFatal_pv : (s.setFatal).pv = s.pv := rfl
@[simp] theorem setFatal_phdr : (s.setFatal).phdr = s.phdr := rfl
@[simp] theorem setFatal_pay : (s.setFatal).pay = s.pay := rfl
@[simp] theorem setFatal_fatal : (s.setFatal).fatal = true := rfl
@[simp] theorem setFatal_pos : (s.setFatal).pos = s.pos := rfl
@[simp] theorem setFatal_busy : (s.setFatal).busy = s.busy := rfl
@[simp] theorem setFatal_word : (s.setFatal).word = s.word := rfl
@[simp] theorem setFatal_opa : (s.setFatal).opa = s.opa := rfl
@[simp] theorem setFatal_opb : (s.setFatal).opb = s.opb := rfl
@[simp] theorem setFatal_adTaken : (s.setFatal).adTaken = s.adTaken := rfl
@[simp] theorem setFatal_outSent : (s.setFatal).outSent = s.outSent := rfl
@[simp] theorem setFatal_rst : (s.setFatal).rst = s.rst := rfl
@[simp] theorem setFatal_cmdQ : (s.setFatal).cmdQ = s.cmdQ := rfl
@[simp] theorem setFatal_adQ : (s.setFatal).adQ = s.adQ := rfl
@[simp] theorem setFatal_outTake : (s.setFatal).outTake = s.outTake := rfl
@[simp] theorem setFatal_rspTake : (s.setFatal).rspTake = s.rspTake := rfl
@[simp] theorem setFatal_outLog : (s.setFatal).outLog = s.outLog := rfl
@[simp] theorem setFatal_rspLog : (s.setFatal).rspLog = s.rspLog := rfl
@[simp] theorem setFatal_fresh : (s.setFatal).fresh = s.fresh := rfl

/-! ### State.setPos -/

@[simp] theorem setPos_h (n : Nat) : (s.setPos n).h = s.h := rfl
@[simp] theorem setPos_pv (n : Nat) : (s.setPos n).pv = s.pv := rfl
@[simp] theorem setPos_phdr (n : Nat) : (s.setPos n).phdr = s.phdr := rfl
@[simp] theorem setPos_pay (n : Nat) : (s.setPos n).pay = s.pay := rfl
@[simp] theorem setPos_fatal (n : Nat) : (s.setPos n).fatal = s.fatal := rfl
@[simp] theorem setPos_pos (n : Nat) : (s.setPos n).pos = n := rfl
@[simp] theorem setPos_busy (n : Nat) : (s.setPos n).busy = s.busy := rfl
@[simp] theorem setPos_word (n : Nat) : (s.setPos n).word = s.word := rfl
@[simp] theorem setPos_opa (n : Nat) : (s.setPos n).opa = s.opa := rfl
@[simp] theorem setPos_opb (n : Nat) : (s.setPos n).opb = s.opb := rfl
@[simp] theorem setPos_adTaken (n : Nat) : (s.setPos n).adTaken = s.adTaken := rfl
@[simp] theorem setPos_outSent (n : Nat) : (s.setPos n).outSent = s.outSent := rfl
@[simp] theorem setPos_rst (n : Nat) : (s.setPos n).rst = s.rst := rfl
@[simp] theorem setPos_cmdQ (n : Nat) : (s.setPos n).cmdQ = s.cmdQ := rfl
@[simp] theorem setPos_adQ (n : Nat) : (s.setPos n).adQ = s.adQ := rfl
@[simp] theorem setPos_outTake (n : Nat) : (s.setPos n).outTake = s.outTake := rfl
@[simp] theorem setPos_rspTake (n : Nat) : (s.setPos n).rspTake = s.rspTake := rfl
@[simp] theorem setPos_outLog (n : Nat) : (s.setPos n).outLog = s.outLog := rfl
@[simp] theorem setPos_rspLog (n : Nat) : (s.setPos n).rspLog = s.rspLog := rfl
@[simp] theorem setPos_fresh (n : Nat) : (s.setPos n).fresh = s.fresh := rfl

/-! ### State.holdPdu -/

@[simp] theorem holdPdu_h (v : Header) : (s.holdPdu v).h = s.h := rfl
@[simp] theorem holdPdu_pv (v : Header) : (s.holdPdu v).pv = true := rfl
@[simp] theorem holdPdu_phdr (v : Header) : (s.holdPdu v).phdr = v := rfl
@[simp] theorem holdPdu_pay (v : Header) : (s.holdPdu v).pay = s.pay := rfl
@[simp] theorem holdPdu_fatal (v : Header) : (s.holdPdu v).fatal = s.fatal := rfl
@[simp] theorem holdPdu_pos (v : Header) : (s.holdPdu v).pos = s.pos := rfl
@[simp] theorem holdPdu_busy (v : Header) : (s.holdPdu v).busy = s.busy := rfl
@[simp] theorem holdPdu_word (v : Header) : (s.holdPdu v).word = s.word := rfl
@[simp] theorem holdPdu_opa (v : Header) : (s.holdPdu v).opa = s.opa := rfl
@[simp] theorem holdPdu_opb (v : Header) : (s.holdPdu v).opb = s.opb := rfl
@[simp] theorem holdPdu_adTaken (v : Header) : (s.holdPdu v).adTaken = s.adTaken := rfl
@[simp] theorem holdPdu_outSent (v : Header) : (s.holdPdu v).outSent = s.outSent := rfl
@[simp] theorem holdPdu_rst (v : Header) : (s.holdPdu v).rst = s.rst := rfl
@[simp] theorem holdPdu_cmdQ (v : Header) : (s.holdPdu v).cmdQ = s.cmdQ := rfl
@[simp] theorem holdPdu_adQ (v : Header) : (s.holdPdu v).adQ = s.adQ := rfl
@[simp] theorem holdPdu_outTake (v : Header) : (s.holdPdu v).outTake = s.outTake := rfl
@[simp] theorem holdPdu_rspTake (v : Header) : (s.holdPdu v).rspTake = s.rspTake := rfl
@[simp] theorem holdPdu_outLog (v : Header) : (s.holdPdu v).outLog = s.outLog := rfl
@[simp] theorem holdPdu_rspLog (v : Header) : (s.holdPdu v).rspLog = s.rspLog := rfl
@[simp] theorem holdPdu_fresh (v : Header) : (s.holdPdu v).fresh = s.fresh := rfl

/-! ### State.dropPdu -/

@[simp] theorem dropPdu_h : (s.dropPdu).h = s.h := rfl
@[simp] theorem dropPdu_pv : (s.dropPdu).pv = false := rfl
@[simp] theorem dropPdu_phdr : (s.dropPdu).phdr = Config.freeHeader s.fresh := rfl
@[simp] theorem dropPdu_pay : (s.dropPdu).pay = Memory.free s.fresh := rfl
@[simp] theorem dropPdu_fatal : (s.dropPdu).fatal = s.fatal := rfl
@[simp] theorem dropPdu_pos : (s.dropPdu).pos = s.pos := rfl
@[simp] theorem dropPdu_busy : (s.dropPdu).busy = s.busy := rfl
@[simp] theorem dropPdu_word : (s.dropPdu).word = s.word := rfl
@[simp] theorem dropPdu_opa : (s.dropPdu).opa = s.opa := rfl
@[simp] theorem dropPdu_opb : (s.dropPdu).opb = s.opb := rfl
@[simp] theorem dropPdu_adTaken : (s.dropPdu).adTaken = s.adTaken := rfl
@[simp] theorem dropPdu_outSent : (s.dropPdu).outSent = s.outSent := rfl
@[simp] theorem dropPdu_rst : (s.dropPdu).rst = s.rst := rfl
@[simp] theorem dropPdu_cmdQ : (s.dropPdu).cmdQ = s.cmdQ := rfl
@[simp] theorem dropPdu_adQ : (s.dropPdu).adQ = s.adQ := rfl
@[simp] theorem dropPdu_outTake : (s.dropPdu).outTake = s.outTake := rfl
@[simp] theorem dropPdu_rspTake : (s.dropPdu).rspTake = s.rspTake := rfl
@[simp] theorem dropPdu_outLog : (s.dropPdu).outLog = s.outLog := rfl
@[simp] theorem dropPdu_rspLog : (s.dropPdu).rspLog = s.rspLog := rfl
@[simp] theorem dropPdu_fresh : (s.dropPdu).fresh = s.fresh + 1 := rfl

/-! ### State.memWrite -/

@[simp] theorem memWrite_h (a : Nat) (bs : List Byte) : (s.memWrite a bs).h = s.h := rfl
@[simp] theorem memWrite_pv (a : Nat) (bs : List Byte) : (s.memWrite a bs).pv = s.pv := rfl
@[simp] theorem memWrite_phdr (a : Nat) (bs : List Byte) : (s.memWrite a bs).phdr = s.phdr := rfl
@[simp] theorem memWrite_pay (a : Nat) (bs : List Byte) : (s.memWrite a bs).pay = s.pay.writeBytes a bs := rfl
@[simp] theorem memWrite_fatal (a : Nat) (bs : List Byte) : (s.memWrite a bs).fatal = s.fatal := rfl
@[simp] theorem memWrite_pos (a : Nat) (bs : List Byte) : (s.memWrite a bs).pos = s.pos := rfl
@[simp] theorem memWrite_busy (a : Nat) (bs : List Byte) : (s.memWrite a bs).busy = s.busy := rfl
@[simp] theorem memWrite_word (a : Nat) (bs : List Byte) : (s.memWrite a bs).word = s.word := rfl
@[simp] theorem memWrite_opa (a : Nat) (bs : List Byte) : (s.memWrite a bs).opa = s.opa := rfl
@[simp] theorem memWrite_opb (a : Nat) (bs : List Byte) : (s.memWrite a bs).opb = s.opb := rfl
@[simp] theorem memWrite_adTaken (a : Nat) (bs : List Byte) : (s.memWrite a bs).adTaken = s.adTaken := rfl
@[simp] theorem memWrite_outSent (a : Nat) (bs : List Byte) : (s.memWrite a bs).outSent = s.outSent := rfl
@[simp] theorem memWrite_rst (a : Nat) (bs : List Byte) : (s.memWrite a bs).rst = s.rst := rfl
@[simp] theorem memWrite_cmdQ (a : Nat) (bs : List Byte) : (s.memWrite a bs).cmdQ = s.cmdQ := rfl
@[simp] theorem memWrite_adQ (a : Nat) (bs : List Byte) : (s.memWrite a bs).adQ = s.adQ := rfl
@[simp] theorem memWrite_outTake (a : Nat) (bs : List Byte) : (s.memWrite a bs).outTake = s.outTake := rfl
@[simp] theorem memWrite_rspTake (a : Nat) (bs : List Byte) : (s.memWrite a bs).rspTake = s.rspTake := rfl
@[simp] theorem memWrite_outLog (a : Nat) (bs : List Byte) : (s.memWrite a bs).outLog = s.outLog := rfl
@[simp] theorem memWrite_rspLog (a : Nat) (bs : List Byte) : (s.memWrite a bs).rspLog = s.rspLog := rfl
@[simp] theorem memWrite_fresh (a : Nat) (bs : List Byte) : (s.memWrite a bs).fresh = s.fresh := rfl

/-! ### State.accept -/

@[simp] theorem accept_h (c : CmdBeat) (rest : List CmdBeat) : (s.accept c rest).h = s.h := rfl
@[simp] theorem accept_pv (c : CmdBeat) (rest : List CmdBeat) : (s.accept c rest).pv = s.pv := rfl
@[simp] theorem accept_phdr (c : CmdBeat) (rest : List CmdBeat) : (s.accept c rest).phdr = s.phdr := rfl
@[simp] theorem accept_pay (c : CmdBeat) (rest : List CmdBeat) : (s.accept c rest).pay = s.pay := rfl
@[simp] theorem accept_fatal (c : CmdBeat) (rest : List CmdBeat) : (s.accept c rest).fatal = s.fatal := rfl
@[simp] theorem accept_pos (c : CmdBeat) (rest : List CmdBeat) : (s.accept c rest).pos = s.pos := rfl
@[simp] theorem accept_busy (c : CmdBeat) (rest : List CmdBeat) : (s.accept c rest).busy = true := rfl
@[simp] theorem accept_word (c : CmdBeat) (rest : List CmdBeat) : (s.accept c rest).word = c.word := rfl
@[simp] theorem accept_opa (c : CmdBeat) (rest : List CmdBeat) : (s.accept c rest).opa = c.opa := rfl
@[simp] theorem accept_opb (c : CmdBeat) (rest : List CmdBeat) : (s.accept c rest).opb = c.opb := rfl
@[simp] theorem accept_adTaken (c : CmdBeat) (rest : List CmdBeat) : (s.accept c rest).adTaken = [] := rfl
@[simp] theorem accept_outSent (c : CmdBeat) (rest : List CmdBeat) : (s.accept c rest).outSent = 0 := rfl
@[simp] theorem accept_rst (c : CmdBeat) (rest : List CmdBeat) : (s.accept c rest).rst = s.rst := rfl
@[simp] theorem accept_cmdQ (c : CmdBeat) (rest : List CmdBeat) : (s.accept c rest).cmdQ = rest := rfl
@[simp] theorem accept_adQ (c : CmdBeat) (rest : List CmdBeat) : (s.accept c rest).adQ = s.adQ := rfl
@[simp] theorem accept_outTake (c : CmdBeat) (rest : List CmdBeat) : (s.accept c rest).outTake = s.outTake := rfl
@[simp] theorem accept_rspTake (c : CmdBeat) (rest : List CmdBeat) : (s.accept c rest).rspTake = s.rspTake := rfl
@[simp] theorem accept_outLog (c : CmdBeat) (rest : List CmdBeat) : (s.accept c rest).outLog = s.outLog := rfl
@[simp] theorem accept_rspLog (c : CmdBeat) (rest : List CmdBeat) : (s.accept c rest).rspLog = s.rspLog := rfl
@[simp] theorem accept_fresh (c : CmdBeat) (rest : List CmdBeat) : (s.accept c rest).fresh = s.fresh := rfl

/-! ### State.takeAd -/

@[simp] theorem takeAd_h (taken rest : List Byte) : (s.takeAd taken rest).h = s.h := rfl
@[simp] theorem takeAd_pv (taken rest : List Byte) : (s.takeAd taken rest).pv = s.pv := rfl
@[simp] theorem takeAd_phdr (taken rest : List Byte) : (s.takeAd taken rest).phdr = s.phdr := rfl
@[simp] theorem takeAd_pay (taken rest : List Byte) : (s.takeAd taken rest).pay = s.pay := rfl
@[simp] theorem takeAd_fatal (taken rest : List Byte) : (s.takeAd taken rest).fatal = s.fatal := rfl
@[simp] theorem takeAd_pos (taken rest : List Byte) : (s.takeAd taken rest).pos = s.pos := rfl
@[simp] theorem takeAd_busy (taken rest : List Byte) : (s.takeAd taken rest).busy = s.busy := rfl
@[simp] theorem takeAd_word (taken rest : List Byte) : (s.takeAd taken rest).word = s.word := rfl
@[simp] theorem takeAd_opa (taken rest : List Byte) : (s.takeAd taken rest).opa = s.opa := rfl
@[simp] theorem takeAd_opb (taken rest : List Byte) : (s.takeAd taken rest).opb = s.opb := rfl
@[simp] theorem takeAd_adTaken (taken rest : List Byte) : (s.takeAd taken rest).adTaken = taken := rfl
@[simp] theorem takeAd_outSent (taken rest : List Byte) : (s.takeAd taken rest).outSent = s.outSent := rfl
@[simp] theorem takeAd_rst (taken rest : List Byte) : (s.takeAd taken rest).rst = s.rst := rfl
@[simp] theorem takeAd_cmdQ (taken rest : List Byte) : (s.takeAd taken rest).cmdQ = s.cmdQ := rfl
@[simp] theorem takeAd_adQ (taken rest : List Byte) : (s.takeAd taken rest).adQ = rest := rfl
@[simp] theorem takeAd_outTake (taken rest : List Byte) : (s.takeAd taken rest).outTake = s.outTake := rfl
@[simp] theorem takeAd_rspTake (taken rest : List Byte) : (s.takeAd taken rest).rspTake = s.rspTake := rfl
@[simp] theorem takeAd_outLog (taken rest : List Byte) : (s.takeAd taken rest).outLog = s.outLog := rfl
@[simp] theorem takeAd_rspLog (taken rest : List Byte) : (s.takeAd taken rest).rspLog = s.rspLog := rfl
@[simp] theorem takeAd_fresh (taken rest : List Byte) : (s.takeAd taken rest).fresh = s.fresh := rfl

/-! ### State.sendOut -/

@[simp] theorem sendOut_h (bs : List OutBeat) : (s.sendOut bs).h = s.h := rfl
@[simp] theorem sendOut_pv (bs : List OutBeat) : (s.sendOut bs).pv = s.pv := rfl
@[simp] theorem sendOut_phdr (bs : List OutBeat) : (s.sendOut bs).phdr = s.phdr := rfl
@[simp] theorem sendOut_pay (bs : List OutBeat) : (s.sendOut bs).pay = s.pay := rfl
@[simp] theorem sendOut_fatal (bs : List OutBeat) : (s.sendOut bs).fatal = s.fatal := rfl
@[simp] theorem sendOut_pos (bs : List OutBeat) : (s.sendOut bs).pos = s.pos := rfl
@[simp] theorem sendOut_busy (bs : List OutBeat) : (s.sendOut bs).busy = s.busy := rfl
@[simp] theorem sendOut_word (bs : List OutBeat) : (s.sendOut bs).word = s.word := rfl
@[simp] theorem sendOut_opa (bs : List OutBeat) : (s.sendOut bs).opa = s.opa := rfl
@[simp] theorem sendOut_opb (bs : List OutBeat) : (s.sendOut bs).opb = s.opb := rfl
@[simp] theorem sendOut_adTaken (bs : List OutBeat) : (s.sendOut bs).adTaken = s.adTaken := rfl
@[simp] theorem sendOut_outSent (bs : List OutBeat) : (s.sendOut bs).outSent = s.outSent + bs.length := rfl
@[simp] theorem sendOut_rst (bs : List OutBeat) : (s.sendOut bs).rst = s.rst := rfl
@[simp] theorem sendOut_cmdQ (bs : List OutBeat) : (s.sendOut bs).cmdQ = s.cmdQ := rfl
@[simp] theorem sendOut_adQ (bs : List OutBeat) : (s.sendOut bs).adQ = s.adQ := rfl
@[simp] theorem sendOut_outTake (bs : List OutBeat) : (s.sendOut bs).outTake = s.outTake - bs.length := rfl
@[simp] theorem sendOut_rspTake (bs : List OutBeat) : (s.sendOut bs).rspTake = s.rspTake := rfl
@[simp] theorem sendOut_outLog (bs : List OutBeat) : (s.sendOut bs).outLog = s.outLog ++ bs := rfl
@[simp] theorem sendOut_rspLog (bs : List OutBeat) : (s.sendOut bs).rspLog = s.rspLog := rfl
@[simp] theorem sendOut_fresh (bs : List OutBeat) : (s.sendOut bs).fresh = s.fresh := rfl

/-! ### State.endCommand -/

@[simp] theorem endCommand_h (r : Response) : (s.endCommand r).h = s.h := rfl
@[simp] theorem endCommand_pv (r : Response) : (s.endCommand r).pv = s.pv := rfl
@[simp] theorem endCommand_phdr (r : Response) : (s.endCommand r).phdr = s.phdr := rfl
@[simp] theorem endCommand_pay (r : Response) : (s.endCommand r).pay = s.pay := rfl
@[simp] theorem endCommand_fatal (r : Response) : (s.endCommand r).fatal = s.fatal := rfl
@[simp] theorem endCommand_pos (r : Response) : (s.endCommand r).pos = s.pos := rfl
@[simp] theorem endCommand_busy (r : Response) : (s.endCommand r).busy = false := rfl
@[simp] theorem endCommand_word (r : Response) : (s.endCommand r).word = s.word := rfl
@[simp] theorem endCommand_opa (r : Response) : (s.endCommand r).opa = s.opa := rfl
@[simp] theorem endCommand_opb (r : Response) : (s.endCommand r).opb = s.opb := rfl
@[simp] theorem endCommand_adTaken (r : Response) : (s.endCommand r).adTaken = [] := rfl
@[simp] theorem endCommand_outSent (r : Response) : (s.endCommand r).outSent = 0 := rfl
@[simp] theorem endCommand_rst (r : Response) : (s.endCommand r).rst = s.rst := rfl
@[simp] theorem endCommand_cmdQ (r : Response) : (s.endCommand r).cmdQ = s.cmdQ := rfl
@[simp] theorem endCommand_adQ (r : Response) : (s.endCommand r).adQ = s.adQ := rfl
@[simp] theorem endCommand_outTake (r : Response) : (s.endCommand r).outTake = s.outTake := rfl
@[simp] theorem endCommand_rspTake (r : Response) : (s.endCommand r).rspTake = s.rspTake - 1 := rfl
@[simp] theorem endCommand_outLog (r : Response) : (s.endCommand r).outLog = s.outLog := rfl
@[simp] theorem endCommand_rspLog (r : Response) : (s.endCommand r).rspLog = s.rspLog ++ [r] := rfl
@[simp] theorem endCommand_fresh (r : Response) : (s.endCommand r).fresh = s.fresh := rfl

/-! ### State.applyReset -/

@[simp] theorem applyReset_h : (s.applyReset).h = 0x0000 := rfl
@[simp] theorem applyReset_pv : (s.applyReset).pv = false := rfl
@[simp] theorem applyReset_phdr : (s.applyReset).phdr = Config.freeHeader s.fresh := rfl
@[simp] theorem applyReset_pay : (s.applyReset).pay = Memory.free s.fresh := rfl
@[simp] theorem applyReset_fatal : (s.applyReset).fatal = false := rfl
@[simp] theorem applyReset_pos : (s.applyReset).pos = (Config.freePos s.fresh).val := rfl
@[simp] theorem applyReset_busy : (s.applyReset).busy = false := rfl
@[simp] theorem applyReset_word : (s.applyReset).word = 0 := rfl
@[simp] theorem applyReset_opa : (s.applyReset).opa = 0 := rfl
@[simp] theorem applyReset_opb : (s.applyReset).opb = 0 := rfl
@[simp] theorem applyReset_adTaken : (s.applyReset).adTaken = [] := rfl
@[simp] theorem applyReset_outSent : (s.applyReset).outSent = 0 := rfl
@[simp] theorem applyReset_rst : (s.applyReset).rst = false := rfl
@[simp] theorem applyReset_cmdQ : (s.applyReset).cmdQ = s.cmdQ := rfl
@[simp] theorem applyReset_adQ : (s.applyReset).adQ = s.adQ := rfl
@[simp] theorem applyReset_outTake : (s.applyReset).outTake = s.outTake := rfl
@[simp] theorem applyReset_rspTake : (s.applyReset).rspTake = s.rspTake := rfl
@[simp] theorem applyReset_outLog : (s.applyReset).outLog = s.outLog := rfl
@[simp] theorem applyReset_rspLog : (s.applyReset).rspLog = s.rspLog := rfl
@[simp] theorem applyReset_fresh : (s.applyReset).fresh = s.fresh + 1 := rfl

end Sys2Proof.Laws
end

