-- ==== Sys2Proof/Laws/Memory.lean ====
section
/-! SUPPORT. The laws of the payload buffer: what a byte reads as after every operation, and that every operation keeps the
canonical form (spec/20_memory.md R44, R45). -/

namespace Sys2Proof.Laws

open Sys2Proof.Machine

/-! ### Reading after one update -/

theorem memory_read_erase (m : Memory) (a x : Nat) :
    (m.erase a).read x = if x = a then Memory.unlisted else m.read x := by
  induction m with
  | nil => simp [Memory.erase, Memory.read]
  | cons c rest ih =>
    obtain ⟨y, v⟩ := c
    by_cases hy : y = a
    · subst hy
      simp only [Memory.erase, if_true, ih, Memory.read]
      by_cases hx : x = y <;> simp [hx, Ne.symm]
    · simp only [Memory.erase, if_neg hy, Memory.read, ih]
      by_cases hx : y = x
      · subst hx; simp [hy]
      · simp [hx]

theorem memory_read_insert (m : Memory) (a : Nat) (b : Byte) (x : Nat) :
    Memory.read (Memory.insert (m.erase a) a b) x = if x = a then b else m.read x := by
  have key : ∀ n : Memory, (∀ v, (a, v) ∉ n) →
      Memory.read (Memory.insert n a b) x = if x = a then b else n.read x := by
    intro n hn
    induction n with
    | nil => simp [Memory.insert, Memory.read, eq_comm]
    | cons c rest ih =>
      obtain ⟨y, v⟩ := c
      have hy : y ≠ a := fun h => hn v (by simp [h])
      have ih := ih (fun w hw => hn w (List.mem_cons_of_mem _ hw))
      by_cases hlt : a < y
      · simp [Memory.insert, hlt, Memory.read, eq_comm]
      · simp only [Memory.insert, if_neg hlt, Memory.read, ih]
        by_cases hx : y = x
        · subst hx; simp [hy]
        · simp [hx]
  have hfresh : ∀ v, (a, v) ∉ m.erase a := by
    intro v
    induction m with
    | nil => simp [Memory.erase]
    | cons c rest ih =>
      obtain ⟨y, w⟩ := c
      by_cases hy : y = a
      · simpa [Memory.erase, hy] using ih
      · simpa [Memory.erase, hy, ih] using fun h => absurd h.symm hy
  rw [key _ hfresh, memory_read_erase]
  split <;> simp_all

@[simp] theorem memory_read_write (m : Memory) (a : Nat) (b : Byte) (x : Nat) :
    (m.write a b).read x = if x = a then b else m.read x := by
  unfold Memory.write
  split
  · next h => rw [memory_read_erase, h]
  · exact memory_read_insert m a b x

/-! ### Runs of bytes -/

theorem memory_read_writeBytes (bs : List Byte) (m : Memory) (a x : Nat) :
    (m.writeBytes a bs).read x = if a ≤ x ∧ x < a + bs.length then bs.getD (x - a) 0 else m.read x := by
  induction bs generalizing m a with
  | nil =>
    have : ¬(a ≤ x ∧ x < a + 0) := by omega
    simp only [Memory.writeBytes, List.length_nil, if_neg this]
  | cons b bs ih =>
    rw [Memory.writeBytes, ih, memory_read_write]
    by_cases hxa : x = a
    · subst hxa; simp
    · by_cases h : a ≤ x ∧ x < a + (b :: bs).length
      · have h' : a + 1 ≤ x ∧ x < a + 1 + bs.length := by
          simp only [List.length_cons] at h; omega
        have hsub : x - a = (x - (a + 1)) + 1 := by omega
        rw [if_pos h, if_pos h', hsub, List.getD_cons_succ]
      · have h' : ¬(a + 1 ≤ x ∧ x < a + 1 + bs.length) := by
          simp only [List.length_cons] at h; omega
        rw [if_neg h, if_neg h', if_neg hxa]

theorem memory_readBytes_eq_map (m : Memory) (a n : Nat) :
    m.readBytes a n = (List.range n).map (fun j => m.read (a + j)) := by
  induction n generalizing a with
  | zero => rfl
  | succ n ih =>
    rw [Memory.readBytes, ih, List.range_succ_eq_map, List.map_cons, List.map_map]
    congr 1
    refine List.map_congr_left fun j _ => ?_
    simp only [Function.comp_apply, Nat.succ_eq_add_one]
    congr 1; omega

/-! ### The canonical form -/

theorem memory_wfFrom_mono {m : Memory} {lo lo' : Nat} (h : lo' ≤ lo) (hm : m.wfFrom lo = true) :
    m.wfFrom lo' = true := by
  cases m with
  | nil => rfl
  | cons c rest =>
    obtain ⟨a, b⟩ := c
    simp only [Memory.wfFrom, Bool.and_eq_true, decide_eq_true_eq] at hm ⊢
    exact ⟨⟨⟨h.trans hm.1.1.1, hm.1.1.2⟩, hm.1.2⟩, hm.2⟩

theorem memory_wfFrom_erase {m : Memory} {lo : Nat} (a : Nat) (hm : m.wfFrom lo = true) :
    (m.erase a).wfFrom lo = true := by
  induction m generalizing lo with
  | nil => rfl
  | cons c rest ih =>
    obtain ⟨y, v⟩ := c
    simp only [Memory.wfFrom, Bool.and_eq_true, decide_eq_true_eq] at hm
    by_cases hy : y = a
    · simpa [Memory.erase, hy] using memory_wfFrom_mono (by omega) (ih hm.2)
    · simp only [Memory.erase, if_neg hy, Memory.wfFrom, Bool.and_eq_true, decide_eq_true_eq]
      exact ⟨hm.1, ih hm.2⟩

theorem memory_wfFrom_insert {m : Memory} {lo a : Nat} {b : Byte} (hlo : lo ≤ a) (ha : a < 37)
    (hb : b ≠ Memory.unlisted) (hn : ∀ v, (a, v) ∉ m) (hm : m.wfFrom lo = true) :
    (m.insert a b).wfFrom lo = true := by
  induction m generalizing lo with
  | nil => simp [Memory.insert, Memory.wfFrom, hlo, ha, hb, Config.maxPayload]
  | cons c rest ih =>
    obtain ⟨y, v⟩ := c
    have hy : y ≠ a := fun h => hn v (by simp [h])
    simp only [Memory.wfFrom, Bool.and_eq_true, decide_eq_true_eq] at hm
    by_cases hlt : a < y
    · simp only [Memory.insert, if_pos hlt, Memory.wfFrom, Bool.and_eq_true, decide_eq_true_eq]
      exact ⟨⟨⟨hlo, ha⟩, hb⟩, ⟨⟨hlt, hm.1.1.2⟩, hm.1.2⟩, hm.2⟩
    · simp only [Memory.insert, if_neg hlt, Memory.wfFrom, Bool.and_eq_true, decide_eq_true_eq]
      exact ⟨hm.1, ih (by omega) (fun w hw => hn w (List.mem_cons_of_mem _ hw)) hm.2⟩

theorem memory_not_mem_erase (m : Memory) (a : Nat) : ∀ v, (a, v) ∉ m.erase a := by
  intro v
  induction m with
  | nil => simp [Memory.erase]
  | cons c rest ih =>
    obtain ⟨y, w⟩ := c
    by_cases hy : y = a
    · simpa [Memory.erase, hy] using ih
    · simpa [Memory.erase, hy, ih] using fun h => absurd h.symm hy

theorem memory_wf_write {m : Memory} {a : Nat} (b : Byte) (ha : a < 37) (hm : m.wf = true) :
    (m.write a b).wf = true := by
  unfold Memory.write
  split
  · exact memory_wfFrom_erase a hm
  · next hb =>
    exact memory_wfFrom_insert (Nat.zero_le _) ha hb (memory_not_mem_erase m a) (memory_wfFrom_erase a hm)

theorem memory_wf_writeBytes {m : Memory} {a : Nat} {bs : List Byte} (h : a + bs.length ≤ 37) (hm : m.wf = true) :
    (m.writeBytes a bs).wf = true := by
  induction bs generalizing m a with
  | nil => exact hm
  | cons b bs ih =>
    simp only [List.length_cons] at h
    exact ih (by omega) (memory_wf_write b (by omega) hm)

theorem memory_wf_free (n : Nat) : (Memory.free n).wf = true :=
  memory_wf_writeBytes (by simp [Config.maxPayload]) rfl

end Sys2Proof.Laws
end

