-- ==== Sys2Proof/Laws/Channels.lean ====
section
/-! SUPPORT. One lemma per channel operation that says everything it can do: Respond, raise, Emit, AdReadSeq
(spec/00_scope.md R9). -/

namespace Sys2Proof.Laws

open Sys2Proof.Machine Sys2Proof.Safety

/-- Respond: the command holds unchanged, or its effects happen and it is answered. -/
theorem respond_cases {s eff t : State} {st : Status} {d : BitVec 16} (h : s.respond eff st d = .next t) :
    (s.rspTake = 0 ∧ t = s) ∨ (0 < s.rspTake ∧ t = eff.endCommand ⟨st, d⟩) := by
  unfold State.respond at h
  split at h
  · next h0 => cases h; exact .inl ⟨h0, rfl⟩
  · next h0 => cases h; exact .inr ⟨by omega, rfl⟩

theorem respond_taken {s : State} (eff : State) (st : Status) (d : BitVec 16) (h : 0 < s.rspTake) :
    s.respond eff st d = .next (answered eff st d) := by
  unfold State.respond
  rw [if_neg (by omega)]
  rfl

theorem respond_untaken {s : State} (eff : State) (st : Status) (d : BitVec 16) (h : s.rspTake = 0) :
    s.respond eff st d = .next s := if_pos h

theorem raise_taken {s : State} (cur : State) (f : Failure) (h : 0 < s.rspTake) :
    s.raise cur f = .next (answered (failureEffect f cur) (failureStatus f) (failureData f)) :=
  respond_taken _ _ _ h

/-- Emit with the host taking every beat. -/
theorem emit_all {s : State} {bs : List Byte} (k : State → Host.Outcome State Fault Refusal)
    (h : ((outBeats bs).drop s.outSent).length ≤ s.outTake) :
    s.emit bs k = k (s.sendOut ((outBeats bs).drop s.outSent)) := if_pos h

/-- Emit with the host taking fewer beats than are left. -/
theorem emit_held {s : State} {bs : List Byte} (k : State → Host.Outcome State Fault Refusal)
    (h : s.outTake < ((outBeats bs).drop s.outSent).length) :
    s.emit bs k = .next (s.sendOut (((outBeats bs).drop s.outSent).take s.outTake)) := if_neg (by omega)

/-- AdReadSeq: the declared sequence is complete and the command goes on, or what is offered is taken and it holds. -/
theorem readElems_complete {s : State} {n : Nat} {es : List (List Byte)} {rest : List Byte}
    (k : List (List Byte) → State → Host.Outcome State Fault Refusal)
    (h : adReadSeq n (s.adTaken ++ s.adQ) = some (es, rest)) :
    s.readElems n k
      = k es (s.takeAd ((s.adTaken ++ s.adQ).take ((s.adTaken ++ s.adQ).length - rest.length)) rest) := by
  unfold State.readElems
  rw [h]

theorem readElems_held {s : State} {n : Nat} (k : List (List Byte) → State → Host.Outcome State Fault Refusal)
    (h : adReadSeq n (s.adTaken ++ s.adQ) = none) :
    s.readElems n k = .next (s.takeAd (s.adTaken ++ s.adQ) []) := by
  unfold State.readElems
  rw [h]

@[simp] theorem outBeats_length (bs : List Byte) : (outBeats bs).length = bs.length := by
  induction bs using outBeats.induct with
  | case1 => rfl
  | case2 => rfl
  | case3 b b' bs ih => simpa [outBeats] using ih

/-- The beats of a byte list, said by index: `out_last` on the last byte only (R52). -/
theorem outBeats_eq_lastMarked (bs : List Byte) : outBeats bs = lastMarked bs := by
  induction bs using outBeats.induct with
  | case1 => rfl
  | case2 => rfl
  | case3 b b' bs ih =>
    rw [outBeats, ih, lastMarked, lastMarked, List.length_cons (as := b' :: bs), List.range_succ_eq_map, List.map_cons,
      List.map_map]
    congr 1
    simp [Function.comp_def]

/-- One element taken off the stream: the element and what is left make up what was there, after its length byte. -/
theorem adReadElem_eq {q e r : List Byte} (h : adReadElem q = some (e, r)) :
    ∃ len, q = len :: (e ++ r) ∧ e.length = len.toNat := by
  cases q with
  | nil => simp [adReadElem] at h
  | cons len q =>
    simp only [adReadElem, adTakeN] at h
    split at h
    · next hle =>
      simp only [Option.some.injEq, Prod.mk.injEq] at h
      obtain ⟨rfl, rfl⟩ := h
      exact ⟨len, by simp, by simp [hle]⟩
    · cases h

/-- More bytes behind a complete element do not change it. -/
theorem adReadElem_append {q e r : List Byte} (more : List Byte) (h : adReadElem q = some (e, r)) :
    adReadElem (q ++ more) = some (e, r ++ more) := by
  obtain ⟨len, rfl, hlen⟩ := adReadElem_eq h
  simp [adReadElem, adTakeN, ← hlen]

/-- More bytes behind a complete sequence do not change it. -/
theorem adReadSeq_append {n : Nat} {q : List Byte} {es : List (List Byte)} {r : List Byte} (more : List Byte)
    (h : adReadSeq n q = some (es, r)) : adReadSeq n (q ++ more) = some (es, r ++ more) := by
  induction n generalizing q es with
  | zero => simp only [adReadSeq, Option.some.injEq, Prod.mk.injEq] at h ⊢; simp [h]
  | succ n ih =>
    simp only [adReadSeq] at h ⊢
    cases he : adReadElem q with
    | none => simp [he] at h
    | some p =>
      obtain ⟨e, q'⟩ := p
      simp only [he] at h
      cases hs : adReadSeq n q' with
      | none => simp [hs] at h
      | some p' =>
        obtain ⟨es', r'⟩ := p'
        simp only [hs, Option.some.injEq, Prod.mk.injEq] at h
        obtain ⟨rfl, rfl⟩ := h
        simp [adReadElem_append more he, ih hs]

/-- What is left over is the end of what was there. -/
theorem adReadSeq_rest {n : Nat} {q : List Byte} {es : List (List Byte)} {r : List Byte}
    (h : adReadSeq n q = some (es, r)) : ∃ used, q = used ++ r := by
  induction n generalizing q es with
  | zero =>
    simp only [adReadSeq, Option.some.injEq, Prod.mk.injEq] at h
    exact ⟨[], by simp [h.2]⟩
  | succ n ih =>
    simp only [adReadSeq] at h
    cases he : adReadElem q with
    | none => simp [he] at h
    | some p =>
      obtain ⟨e, q'⟩ := p
      simp only [he] at h
      cases hs : adReadSeq n q' with
      | none => simp [hs] at h
      | some p' =>
        obtain ⟨es', r'⟩ := p'
        simp only [hs, Option.some.injEq, Prod.mk.injEq] at h
        obtain ⟨rfl, rfl⟩ := h
        obtain ⟨len, rfl, -⟩ := adReadElem_eq he
        obtain ⟨used, rfl⟩ := ih hs
        exact ⟨len :: (e ++ used), by simp⟩

end Sys2Proof.Laws
end

