-- ==== Sys2Proof/Laws/Assembler.lean ====
section
/-! SUPPORT. What the bounded writer and the assembly helper can do (spec/20_memory.md R48, spec/42_assembler.md R132). -/

namespace Sys2Proof.Laws

open Sys2Proof.Machine Sys2Proof.Safety

theorem memory_writeBytes_append (es fs : List Byte) (m : Memory) (a : Nat) :
    m.writeBytes a (es ++ fs) = (m.writeBytes a es).writeBytes (a + es.length) fs := by
  induction es generalizing m a with
  | nil => rfl
  | cons e es ih =>
    simp only [List.cons_append, Memory.writeBytes, ih, List.length_cons]
    congr 1; omega

/-- A slice that fits is written at the cursor. -/
theorem writeSlice_fits {s : State} {bs : List Byte} (h : s.pos + bs.length ≤ 37) :
    s.writeSlice bs = some ((s.memWrite s.pos bs).setPos (s.pos + bs.length)) := by
  have : ¬ s.spaceLeft < bs.length := by simp only [State.spaceLeft, Config.maxPayload]; omega
  exact if_neg this

/-- A slice that does not fit is not written. -/
theorem writeSlice_full {s : State} {bs : List Byte} (hp : s.pos ≤ 37) (h : 37 < s.pos + bs.length) :
    s.writeSlice bs = none := by
  have : s.spaceLeft < bs.length := by simp only [State.spaceLeft, Config.maxPayload]; omega
  exact if_pos this

@[simp] theorem elemTotal_nil : elemTotal [] = 0 := rfl

@[simp] theorem elemTotal_cons (e : List Byte) (es : List (List Byte)) :
    elemTotal (e :: es) = e.length + elemTotal es := by simp [elemTotal]

theorem elemTotal_eq_flatten_length (es : List (List Byte)) : elemTotal es = es.flatten.length := by
  simp [elemTotal, List.length_flatten]

/-- Elements that all fit are written back to back (R132 step 3). -/
theorem writeElems_fit (es : List (List Byte)) {s : State} (h : s.pos + elemTotal es ≤ 37) :
    writeElems es s = ((s.memWrite s.pos es.flatten).setPos (s.pos + elemTotal es), true) := by
  induction es generalizing s with
  | nil => rfl
  | cons e es ih =>
    rw [elemTotal_cons] at h
    rw [writeElems, writeSlice_fits (by omega)]
    simp only
    rw [ih (by simp only [setPos_pos]; omega)]
    simp [State.memWrite, State.setPos, memory_writeBytes_append, Nat.add_assoc]

/-- Elements that do not all fit end the assembly within the buffer (R132 step 3, R49). -/
theorem writeElems_full (es : List (List Byte)) {s : State} (hp : s.pos ≤ 37) (h : 37 < s.pos + elemTotal es) :
    ∃ written, s.pos + written.length ≤ 37 ∧
      writeElems es s = ((s.memWrite s.pos written).setPos (s.pos + written.length), false) := by
  induction es generalizing s with
  | nil => rw [elemTotal_nil] at h; omega
  | cons e es ih =>
    rw [elemTotal_cons] at h
    by_cases he : s.pos + e.length ≤ 37
    · obtain ⟨written, hw, heq⟩ :=
        ih (s := (s.memWrite s.pos e).setPos (s.pos + e.length)) (by simpa using he)
          (by simp only [setPos_pos]; omega)
      refine ⟨e ++ written, by simp only [setPos_pos] at hw; simp only [List.length_append]; omega, ?_⟩
      rw [writeElems, writeSlice_fits he]
      simp only
      rw [heq]
      simp [State.memWrite, State.setPos, memory_writeBytes_append, Nat.add_assoc]
    · refine ⟨[], by simpa using hp, ?_⟩
      rw [writeElems, writeSlice_full hp (by omega)]
      rfl

@[simp] theorem addrBytes_length (a : AddrOperand) : (addrBytes a).length = 6 := rfl

/-- The buffer of an assembly: zeroed, then written from index 0. -/
def filled (s : State) (bs : List Byte) : Memory := (s.pay.writeBytes 0 (List.replicate 37 0x00)).writeBytes 0 bs

theorem filled_read (s : State) (bs : List Byte) {x : Nat} (hx : x < 37) : (filled s bs).read x = bs.getD x 0 := by
  rw [filled, memory_read_writeBytes, memory_read_writeBytes]
  by_cases h : x < bs.length
  · simp [h]
  · have hx' : 0 ≤ x ∧ x < 0 + (List.replicate 37 (0 : Byte)).length := by simpa using hx
    rw [if_neg (by simp [h]), if_pos hx', List.getD_eq_default bs _ (by omega)]
    rw [List.getD_eq_getElem?_getD, List.getElem?_replicate_of_lt (by omega)]
    rfl

theorem filled_wf {s : State} {bs : List Byte} (hb : bs.length ≤ 37) (h : s.pay.wf = true) :
    (filled s bs).wf = true :=
  memory_wf_writeBytes (by omega) (memory_wf_writeBytes (by simp) h)

/-- Assembly succeeds exactly when the elements total at most 31 bytes (R143), and then leaves the address and the
elements back to back in a zeroed buffer. -/
theorem advAssemble_fit (ty : Kind) (a : AddrOperand) (es : List (List Byte)) (s : State) (h : elemTotal es ≤ 31) :
    advAssemble ty a es s
      = ({ s with pay := filled s (addrBytes a ++ es.flatten), pos := 6 + elemTotal es },
          some (advHeader ty a (6 + elemTotal es))) := by
  have h6 : s.zeroFill.pos + (addrBytes a).length ≤ 37 := by simp [State.zeroFill]
  unfold advAssemble
  rw [writeSlice_fits h6]
  simp only
  rw [writeElems_fit es (by simp [State.zeroFill]; omega)]
  simp only [State.spaceLeft, Config.maxPayload, setPos_pos]
  have hlen : 37 - (37 - (s.zeroFill.pos + (addrBytes a).length + elemTotal es)) = 6 + elemTotal es := by
    simp [State.zeroFill]; omega
  rw [hlen]
  simp [State.zeroFill, State.memWrite, State.setPos, filled, memory_writeBytes_append, Config.maxPayload]

/-- Assembly of more than 31 element bytes gives no header and touches only the buffer and the cursor. -/
theorem advAssemble_full (ty : Kind) (a : AddrOperand) (es : List (List Byte)) (s : State) (h : 31 < elemTotal es) :
    ∃ written, written.length ≤ 37 ∧
      advAssemble ty a es s = ({ s with pay := filled s written, pos := written.length }, none) := by
  have h6 : s.zeroFill.pos + (addrBytes a).length ≤ 37 := by simp [State.zeroFill]
  unfold advAssemble
  rw [writeSlice_fits h6]
  simp only
  obtain ⟨written, hw, heq⟩ :=
    writeElems_full es (s := (s.zeroFill.memWrite s.zeroFill.pos (addrBytes a)).setPos
      (s.zeroFill.pos + (addrBytes a).length)) (by simpa using h6) (by simp [State.zeroFill]; omega)
  rw [heq]
  refine ⟨addrBytes a ++ written, by simpa [State.zeroFill] using hw, ?_⟩
  simp [State.zeroFill, State.memWrite, State.setPos, filled, memory_writeBytes_append, Config.maxPayload]

end Sys2Proof.Laws
end

