-- ==== Sys2Proof/Laws/Decode.lean ====
section
/-! SUPPORT. The fields of a command word, once (spec/30_encoding.md R68): every statement about a written-out word goes
through these. -/

namespace Sys2Proof.Laws

@[simp] theorem wordOp_cmdWord (op : Byte) (imm : Imm) : wordOp (cmdWord op imm) = op := by
  apply BitVec.eq_of_getLsbD_eq
  intro i hi
  simp [wordOp, cmdWord, hi]; intro; omega

@[simp] theorem wordImm_cmdWord (op : Byte) (imm : Imm) : wordImm (cmdWord op imm) = imm := by
  apply BitVec.eq_of_getLsbD_eq
  intro i hi
  have h : 8 + i < 32 := by omega
  simp [wordImm, cmdWord, hi, h]

@[simp] theorem wordZero_cmdWord (op : Byte) (imm : Imm) : wordZero (cmdWord op imm) = 0 := by
  apply BitVec.eq_of_getLsbD_eq
  intro i hi
  have h : 24 + i - 8 = 16 + i := by omega
  simp [wordZero, cmdWord, BitVec.getLsbD_of_ge op (24 + i) (by omega), h]

/-- A word with a zero top byte decodes as its opcode and immediate say. -/
theorem decode_cmdWord (op : Byte) (imm : Imm) : decode (cmdWord op imm) = decodeOp op imm := by
  simp [decode]

/-- What decodes to a command is on a line of the decoder, with that line's must-be-zero bits zero. -/
theorem decodeOp_command {op : Byte} {imm : Imm} {i : Instr} (h : decodeOp op imm = .command i) :
    ∃ l ∈ codecLines imm ++ pduLines imm, l.op = op ∧ imm &&& l.mbz = 0 ∧ l.cmd = i := by
  unfold decodeOp at h
  split at h
  · next l hl =>
    unfold unlessSet at h
    split at h
    · next h0 =>
      exact ⟨l, List.mem_of_find?_eq_some hl, by simpa using List.find?_some hl, h0, by simpa using h⟩
    · cases h
  · cases h

/-- A word with a zero top byte is the word of its opcode and immediate. -/
theorem cmdWord_of_fields {w : Word} (h : wordZero w = 0) : cmdWord (wordOp w) (wordImm w) = w := by
  apply BitVec.eq_of_getLsbD_eq
  intro i hi
  have hz := congrArg (fun x => BitVec.getLsbD x (i - 24)) h
  simp only [wordZero, BitVec.getLsbD_extractLsb'] at hz
  by_cases h8 : i < 8
  · simp [cmdWord, wordOp, wordImm, hi, h8]
  · have e8 : 8 + (i - 8) = i := by omega
    by_cases h24 : i < 24
    · simp [cmdWord, wordOp, wordImm, h8, e8, hi, show i - 8 < 16 by omega]
    · have e24 : 24 + (i - 24) = i := by omega
      have : w.getLsbD i = false := by simpa [e24, show i - 24 < 8 by omega] using hz
      rw [this]
      simp [cmdWord, wordOp, wordImm, h8, hi, show ¬ i - 8 < 16 by omega]

/-- The word of an opcode and an immediate, as a number. -/
theorem cmdWord_eq_ofNat (op : Byte) (imm : Imm) : cmdWord op imm = BitVec.ofNat 32 (op.toNat + 256 * imm.toNat) := by
  have hz : wordZero (BitVec.ofNat 32 (op.toNat + 256 * imm.toNat)) = 0 := by
    apply BitVec.eq_of_toNat_eq
    simp [wordZero, Nat.shiftRight_eq_div_pow]; omega
  rw [← cmdWord_of_fields hz]
  congr 1
  · apply BitVec.eq_of_toNat_eq
    simp [wordOp]; omega
  · apply BitVec.eq_of_toNat_eq
    simp [wordImm, Nat.shiftRight_eq_div_pow]; omega

end Sys2Proof.Laws
end

