-- ==== Sys2Proof/Laws/Exec.lean ====
section
/-! SUPPORT. Everything exec can answer, said once (ExecShape and exec_shape): proofs about all commands split on the shape
instead of unfolding every meaning. -/

namespace Sys2Proof.Laws

open Sys2Proof.Machine Sys2Proof.Safety

/-- The bytes an element-taking command has taken once its sequence is complete and `rest` is left. -/
def takenOf (s : State) (rest : List Byte) : List Byte :=
  (s.adTaken ++ s.adQ).take ((s.adTaken ++ s.adQ).length - rest.length)

theorem filled_takeAd (s : State) (taken rest bs : List Byte) : filled (s.takeAd taken rest) bs = filled s bs := rfl

/-- The commands that write `H` when they succeed. -/
def writesH : Instr → Bool
  | .hdrNew _ | .hdrParse _ _ | .hdrSetTx _ | .hdrSetRx _ => true
  | .hdrSetLen n => lenLegal n
  | _ => false

/-- The kind an element-taking command builds and the elements it puts first. -/
def constructorOf : Instr → Option (Kind × List (List Byte))
  | .asmConnUndir _ => some (.connUndir, [])
  | .asmNonconnUndir _ => some (.nonconnUndir, [])
  | .asmScannableUndir _ => some (.scannableUndir, [])
  | .asmBeacon _ => some (.nonconnUndir, [flagsElem Config.flagsBroadcast])
  | .asmDiscoverable _ => some (.connUndir, [flagsElem Config.flagsDiscoverable])
  | _ => none

/-- What a reader of the slot's bytes emits and counts. -/
def readerOf (s : State) : Instr → Option ((List Byte → List Byte) × BitVec 16)
  | .pduPayload => some (fun p => p, (hdrLen s.phdr).setWidth 16)
  | .pduFrame => some (frameBytes s.phdr, (hdrLen s.phdr).setWidth 16 + 2)
  | _ => none

/-- The shapes of exec's outcome. -/
inductive ExecShape (i : Instr) (s : State) : Host.Outcome State Fault Refusal → Prop
  /-- `H` is written. -/
  | header (v : Header) (hi : writesH i = true) : ExecShape i s (s.respond (s.setH v) .ok 0)
  /-- Nothing but the answer. -/
  | answer (st : Status) (d : BitVec 16) (hw : writesH i = false) (hn : i.nelem? = none) (hd : i ≠ .asmConnDir)
      (h : st = .ok ∨ (d = 0 ∧ (st = .unsupported ∨ st = .noPdu))) : ExecShape i s (s.respond s st d)
  /-- The fatal violation. -/
  | halt (n : Nat) (hi : i = .hdrSetLen n) (hn : n < 6 ∨ 37 < n) :
      ExecShape i s (s.respond s.setFatal .fatal (BitVec.ofNat 16 n))
  /-- The two-address constructor. -/
  | directed (hi : i = .asmConnDir) :
      ExecShape i s (s.respond
        { s with
          pay := filled s (addrBytes s.opa ++ addrBytes s.opb), pos := 0, phdr := directedHeader s.opa s.opb, pv := true }
        .ok 0)
  /-- The declared element sequence is not complete. -/
  | missing (n : Nat) (hi : i.nelem? = some n) (h : adReadSeq n (s.adTaken ++ s.adQ) = none) :
      ExecShape i s (.next (s.takeAd (s.adTaken ++ s.adQ) []))
  /-- The elements fit. -/
  | fit (n : Nat) (ty : Kind) (first es : List (List Byte)) (rest : List Byte) (hi : i.nelem? = some n)
      (hc : constructorOf i = some (ty, first)) (h : adReadSeq n (s.adTaken ++ s.adQ) = some (es, rest))
      (ht : elemTotal (first ++ es) ≤ 31) :
      ExecShape i s ((s.takeAd (takenOf s rest) rest).respond
        { s.takeAd (takenOf s rest) rest with
          pay := filled s (addrBytes s.opa ++ (first ++ es).flatten), pos := 6 + elemTotal (first ++ es),
          phdr := advHeader ty s.opa (6 + elemTotal (first ++ es)), pv := true }
        .ok 0)
  /-- The elements do not fit. -/
  | full (n : Nat) (ty : Kind) (first es : List (List Byte)) (rest : List Byte) (pos : Nat) (hi : i.nelem? = some n)
      (hc : constructorOf i = some (ty, first)) (h : adReadSeq n (s.adTaken ++ s.adQ) = some (es, rest))
      (ht : 31 < elemTotal (first ++ es)) (hp : pos ≤ 37) :
      ExecShape i s ((s.takeAd (takenOf s rest) rest).respond
        { s.takeAd (takenOf s rest) rest with
          pay := Memory.free s.fresh, pos := pos, phdr := Config.freeHeader s.fresh, pv := false, fresh := s.fresh + 1 }
        .capacity 0)
  /-- The bytes of a held PDU are emitted. -/
  | emit (f : List Byte → List Byte) (count : BitVec 16) (hi : readerOf s i = some (f, count)) (hp : s.pv = true)
      (hl : slotLen s ≤ 37) :
      ExecShape i s (s.emit (f (s.pay.readBytes 0 (slotLen s))) (fun s1 => s1.respond s1 .ok count))
  /-- The stored length names an index that does not exist. -/
  | stop (hi : (readerOf s i).isSome = true) (hp : s.pv = true) (hl : 37 < slotLen s) :
      ExecShape i s (.fault (.payIndex (slotLen s)))

theorem assembleWith_shape {i : Instr} {n : Nat} {ty : Kind} {first : List (List Byte)} (s : State)
    (hi : i.nelem? = some n) (hc : constructorOf i = some (ty, first)) :
    ExecShape i s (assembleWith ty first n s) := by
  unfold assembleWith
  cases h : adReadSeq n (s.adTaken ++ s.adQ) with
  | none => rw [readElems_held _ h]; exact .missing n hi h
  | some p =>
    obtain ⟨es, rest⟩ := p
    rw [readElems_complete _ h, takeAd_opa, ← takenOf]
    by_cases ht : elemTotal (first ++ es) ≤ 31
    · rw [advAssemble_fit _ _ _ _ ht]
      simp only [asmCommit, State.holdPdu, filled_takeAd]
      exact .fit n ty first es rest hi hc h ht
    · obtain ⟨w, hw, heq⟩ := advAssemble_full ty s.opa (first ++ es) (s.takeAd (takenOf s rest) rest) (by omega)
      rw [heq]
      simp only [asmCommit, State.raise, failureEffect, failureStatus, failureData, State.dropPdu, takeAd_fresh]
      exact .full n ty first es rest w.length hi hc h (by omega) hw

theorem emitSlot_shape {i : Instr} {f : List Byte → List Byte} {count : BitVec 16} (s : State)
    (hi : readerOf s i = some (f, count)) (hw : writesH i = false) (hn : i.nelem? = none) (hd : i ≠ .asmConnDir) :
    ExecShape i s (emitSlot f count s) := by
  unfold emitSlot
  cases hp : s.pv with
  | false => exact .answer .noPdu 0 hw hn hd (.inr ⟨rfl, .inr rfl⟩)
  | true =>
    by_cases hl : slotLen s ≤ 37
    · have hm : s.memRead 0 (slotLen s) = some (s.pay.readBytes 0 (slotLen s)) := if_pos (by simpa using hl)
      simp only [hm, if_true]
      exact .emit f count hi hp hl
    · have hm : s.memRead 0 (slotLen s) = none := if_neg (by simpa using hl)
      simp only [hm, if_true]
      exact .stop (by simp [hi]) hp (by omega)

/-- Every outcome of exec has one of the shapes. -/
theorem exec_shape (i : Instr) (s : State) : ExecShape i s (exec i s) := by
  cases i with
  | hdrNew k => exact .header _ rfl
  | hdrParse b0 b1 => exact .header _ rfl
  | hdrBits => exact .answer .ok _ rfl rfl nofun (.inl rfl)
  | hdrType => exact .answer .ok _ rfl rfl nofun (.inl rfl)
  | hdrTxRnd => exact .answer .ok _ rfl rfl nofun (.inl rfl)
  | hdrSetTx b => exact .header _ rfl
  | hdrRxRnd => exact .answer .ok _ rfl rfl nofun (.inl rfl)
  | hdrSetRx b => exact .header _ rfl
  | hdrLen => exact .answer .ok _ rfl rfl nofun (.inl rfl)
  | hdrSetLen n =>
    change ExecShape _ s (execHdrSetLen n s)
    unfold execHdrSetLen
    by_cases hl : lenLegal n = true
    · rw [if_pos hl]; exact .header _ hl
    · rw [if_neg hl]
      refine .halt n rfl ?_
      simp only [lenLegal, Config.minPayload, Config.maxPayload, Bool.and_eq_true, decide_eq_true_eq] at hl
      omega
  | ptyDec n => exact .answer .ok _ rfl rfl nofun (.inl rfl)
  | ptyEnc k => exact .answer .ok _ rfl rfl nofun (.inl rfl)
  | asmConnUndir n => exact assembleWith_shape s rfl rfl
  | asmConnDir =>
    have h : (directedPayload s.opa s.opb s).holdPdu (directedHeader s.opa s.opb)
        = { s with
            pay := filled s (addrBytes s.opa ++ addrBytes s.opb), pos := 0, phdr := directedHeader s.opa s.opb,
            pv := true } := by
      simp only [directedPayload, State.zeroFill, State.memWrite, State.setPos, State.holdPdu, filled,
        memory_writeBytes_append, Config.maxPayload, Config.addrLen, addrBytes_length, Nat.zero_add]
    change ExecShape _ s (s.respond ((directedPayload s.opa s.opb s).holdPdu (directedHeader s.opa s.opb)) .ok 0)
    rw [h]
    exact .directed rfl
  | asmNonconnUndir n => exact assembleWith_shape s rfl rfl
  | asmScanReq => exact .answer .unsupported 0 rfl rfl nofun (.inr ⟨rfl, .inl rfl⟩)
  | asmScanRsp => exact .answer .unsupported 0 rfl rfl nofun (.inr ⟨rfl, .inl rfl⟩)
  | asmScannableUndir n => exact assembleWith_shape s rfl rfl
  | asmBeacon n => exact assembleWith_shape s rfl rfl
  | asmDiscoverable n => exact assembleWith_shape s rfl rfl
  | pduHeader =>
    change ExecShape _ s (execPduHeader s)
    unfold execPduHeader
    cases hp : s.pv with
    | true => exact .answer .ok _ rfl rfl nofun (.inl rfl)
    | false => exact .answer .noPdu 0 rfl rfl nofun (.inr ⟨rfl, .inr rfl⟩)
  | pduPayload => exact emitSlot_shape s rfl rfl rfl nofun
  | pduFrame => exact emitSlot_shape s rfl rfl rfl nofun

/-- Emit and then respond: held on `out`, held on `rsp`, or over. -/
theorem emit_respond_cases {s t : State} {bs : List Byte} {count : BitVec 16}
    (h : s.emit bs (fun s1 => s1.respond s1 .ok count) = .next t) :
    (∃ beats, t = s.sendOut beats) ∨ (∃ beats, t = (s.sendOut beats).endCommand ⟨.ok, count⟩ ∧ 0 < s.rspTake) := by
  by_cases hl : ((outBeats bs).drop s.outSent).length ≤ s.outTake
  · rw [emit_all _ hl] at h
    rcases respond_cases h with ⟨-, rfl⟩ | ⟨h0, rfl⟩
    · exact .inl ⟨_, rfl⟩
    · exact .inr ⟨_, rfl, h0⟩
  · rw [emit_held _ (by omega)] at h
    cases h
    exact .inl ⟨_, rfl⟩

end Sys2Proof.Laws
end

