-- ==== Sys2Proof/Laws/Header.lean ====
section
/-! SUPPORT. The headers the assembler builds, compared with the packed form of spec/42_assembler.md R143 and R139, and the
fields of a packed header. -/

namespace Sys2Proof.Laws

open Sys2Proof.Machine Sys2Proof.Safety

/-- Building a header field by field gives the packed form (R112). -/
theorem header_by_setters (c : Nibble) (tx rx : Bool) (n : Nat) (h : n ≤ 37) :
    hdrSetRx (hdrSetTx (hdrSetLen (c.setWidth 16) n) tx) rx = packHeader c tx rx n := by
  interval_cases n <;> revert c tx rx <;> decide

theorem advHeader_eq_packHeader (ty : Kind) (a : AddrOperand) (n : Nat) (h : n ≤ 37) :
    advHeader ty a n = packHeader (enc ty.rep) (a.getLsbD 48) false n :=
  header_by_setters (enc ty.rep) (addrRnd a) false n h

theorem directedHeader_eq_packHeader (a b : AddrOperand) :
    directedHeader a b = packHeader 0b0001 (a.getLsbD 48) (b.getLsbD 48) 12 :=
  header_by_setters (enc Kind.connDir.rep) (addrRnd a) (addrRnd b) 12 (by decide)

/-- The fields of a packed header. -/
theorem packHeader_fields (c : Nibble) (tx rx : Bool) (n : Nat) (h : n ≤ 37) :
    ((packHeader c tx rx n).extractLsb' 8 6).toNat = n
    ∧ (packHeader c tx rx n).extractLsb' 4 2 = 0 ∧ (packHeader c tx rx n).extractLsb' 14 2 = 0
    ∧ (packHeader c tx rx n).extractLsb' 0 4 = c
    ∧ (packHeader c tx rx n).getLsbD 6 = tx ∧ (packHeader c tx rx n).getLsbD 7 = rx := by
  interval_cases n <;> revert c tx rx <;> decide

/-- The codes the element-taking commands write (R27). -/
theorem constructorOf_code {i : Instr} {ty : Kind} {first : List (List Byte)}
    (h : constructorOf i = some (ty, first)) : enc ty.rep ∈ [0b0000#4, 0b0010#4, 0b0110#4] := by
  cases i <;> simp [constructorOf] at h <;> obtain ⟨rfl, -⟩ := h <;> decide

end Sys2Proof.Laws
end

