-- ==== Sys2Proof/Laws/PerInstr.lean ====
section
/-! SUPPORT. The per-instruction family EncodedRow: the word of every command, with every operand, is covered by that
command's own row of the opcode map (spec/30_encoding.md R70). -/

namespace Sys2Proof.Laws.EncodedRow

/-- Some row of the opcode map has the command's mnemonic and covers its word. -/
def Statement (i : Instr) : Prop := ∃ r ∈ opcodeTable, r.mnemonic = i.mnemonic ∧ r.covers (encode i) = true

/-- The row at a position of the map is the one looked for. -/
theorem atRow {i : Instr} (n : Nat) (hn : n < opcodeTable.length)
    (h : (opcodeTable[n]).mnemonic = i.mnemonic ∧ (opcodeTable[n]).covers (encode i) = true) : Statement i :=
  ⟨opcodeTable[n], List.getElem_mem hn, h⟩

/-- A row covers a word with its opcode when its mask leaves out every bit the immediate can set. -/
theorem covers_word {name : String} {op : Byte} {imm mbz : Imm} (h : imm &&& mbz = 0#16) :
    (OpcodeRow.mk name (op.setWidth 32) (0xFF0000FF#32 ||| (mbz.setWidth 32 <<< 8))).covers (cmdWord op imm) = true := by
  simp only [OpcodeRow.covers, cmdWord, beq_iff_eq]
  apply BitVec.eq_of_getLsbD_eq
  intro i hi
  have hm := congrArg (fun x => BitVec.getLsbD x (i - 8)) h
  simp only [BitVec.getLsbD_and, BitVec.getLsbD_zero] at hm
  by_cases h8 : i < 8
  · have hff : (0xFF0000FF#32).getLsbD i = true := by interval_cases i <;> rfl
    simp [hi, h8, hff]
  · have hop : op.getLsbD i = false := BitVec.getLsbD_of_ge _ _ (by omega)
    by_cases h24 : i < 24
    · have hff : (0xFF0000FF#32).getLsbD i = false := by interval_cases i <;> rfl
      have hmask : (0xFF0000FF#32 ||| (mbz.setWidth 32 <<< 8)).getLsbD i = mbz.getLsbD (i - 8) := by
        rw [BitVec.getLsbD_or, hff]
        simp [hi, h8]
      have himm : (op.setWidth 32 ||| (imm.setWidth 32 <<< 8)).getLsbD i = imm.getLsbD (i - 8) := by
        simp [hi, h8, hop]
      rw [BitVec.getLsbD_and, hmask, himm, hm]
      simp [hop]
    · have him : imm.getLsbD (i - 8) = false := BitVec.getLsbD_of_ge _ _ (by omega)
      simp [hi, h8, hop, him]

/-- An operand of `w` bits sets no immediate bit from `w` on. -/
theorem narrow {w : Nat} (x : BitVec w) (mbz : Imm) (h : ∀ k, k < w → mbz.getLsbD k = false) :
    x.setWidth 16 &&& mbz = 0#16 := by
  apply BitVec.eq_of_getLsbD_eq
  intro i hi
  by_cases hw : i < w
  · simp [h i hw]
  · simp [BitVec.getLsbD_of_ge x i (by omega)]

theorem hdrNew (k : KindRep) : Statement (.hdrNew k) := atRow 0 (by decide) ⟨rfl, covers_word (narrow k 0xFFE0 (by decide))⟩

theorem hdrParse (b0 b1 : Byte) : Statement (.hdrParse b0 b1) := atRow 1 (by decide) ⟨rfl, covers_word (mbz := 0x0000) (by simp)⟩

theorem hdrBits : Statement (.hdrBits) := atRow 2 (by decide) ⟨rfl, by decide⟩

theorem hdrType : Statement (.hdrType) := atRow 3 (by decide) ⟨rfl, by decide⟩

theorem hdrTxRnd : Statement (.hdrTxRnd) := atRow 4 (by decide) ⟨rfl, by decide⟩

theorem hdrSetTx (b : Bool) : Statement (.hdrSetTx b) := atRow 5 (by decide) ⟨rfl, covers_word (narrow (BitVec.ofBool b) 0xFFFE (by decide))⟩

theorem hdrRxRnd : Statement (.hdrRxRnd) := atRow 6 (by decide) ⟨rfl, by decide⟩

theorem hdrSetRx (b : Bool) : Statement (.hdrSetRx b) := atRow 7 (by decide) ⟨rfl, covers_word (narrow (BitVec.ofBool b) 0xFFFE (by decide))⟩

theorem hdrLen : Statement (.hdrLen) := atRow 8 (by decide) ⟨rfl, by decide⟩

theorem hdrSetLen (n : Nat) : Statement (.hdrSetLen n) := atRow 9 (by decide) ⟨rfl, covers_word (narrow (BitVec.ofNat 8 n) 0xFF00 (by decide))⟩

theorem ptyDec (n : Nibble) : Statement (.ptyDec n) := atRow 10 (by decide) ⟨rfl, covers_word (narrow n 0xFFF0 (by decide))⟩

theorem ptyEnc (k : KindRep) : Statement (.ptyEnc k) := atRow 11 (by decide) ⟨rfl, covers_word (narrow k 0xFFE0 (by decide))⟩

theorem asmConnUndir (n : Nat) : Statement (.asmConnUndir n) := atRow 12 (by decide) ⟨rfl, covers_word (narrow (BitVec.ofNat 8 n) 0xFF00 (by decide))⟩

theorem asmConnDir : Statement (.asmConnDir) := atRow 13 (by decide) ⟨rfl, by decide⟩

theorem asmNonconnUndir (n : Nat) : Statement (.asmNonconnUndir n) := atRow 14 (by decide) ⟨rfl, covers_word (narrow (BitVec.ofNat 8 n) 0xFF00 (by decide))⟩

theorem asmScanReq : Statement (.asmScanReq) := atRow 15 (by decide) ⟨rfl, by decide⟩

theorem asmScanRsp : Statement (.asmScanRsp) := atRow 16 (by decide) ⟨rfl, by decide⟩

theorem asmScannableUndir (n : Nat) : Statement (.asmScannableUndir n) := atRow 17 (by decide) ⟨rfl, covers_word (narrow (BitVec.ofNat 8 n) 0xFF00 (by decide))⟩

theorem asmBeacon (n : Nat) : Statement (.asmBeacon n) := atRow 18 (by decide) ⟨rfl, covers_word (narrow (BitVec.ofNat 8 n) 0xFF00 (by decide))⟩

theorem asmDiscoverable (n : Nat) : Statement (.asmDiscoverable n) := atRow 19 (by decide) ⟨rfl, covers_word (narrow (BitVec.ofNat 8 n) 0xFF00 (by decide))⟩

theorem pduHeader : Statement (.pduHeader) := atRow 20 (by decide) ⟨rfl, by decide⟩

theorem pduPayload : Statement (.pduPayload) := atRow 21 (by decide) ⟨rfl, by decide⟩

theorem pduFrame : Statement (.pduFrame) := atRow 22 (by decide) ⟨rfl, by decide⟩

end Sys2Proof.Laws.EncodedRow
end

