-- ==== Sys2Proof/Tests/Slice0.lean ====
section
/-! SUPPORT. The model's own tests: ill-formed commands refused, words written out from spec/30_encoding.md R69 and R70,
vectors of spec/95_test_vectors.md (named in each docstring), and for every statement with hypotheses a concrete case that
meets them all. Where a statement has several clauses the witness gives each clause a boundary value. -/

namespace Sys2Proof.Tests

open Sys2Proof.Machine Sys2Proof.Safety

/-! ## Helpers -/

/-- Address `A` of the vectors, `11 22 33 44 55 66`, with its random flag. -/
def addrA (rnd : Bool) : AddrOperand := (BitVec.ofBool rnd) ++ 0x665544332211#48

/-- Address `B` of the vectors, `A1 A2 A3 A4 A5 A6`, with its random flag. -/
def addrB (rnd : Bool) : AddrOperand := (BitVec.ofBool rnd) ++ 0xA6A5A4A3A2A1#48

/-- After reset, with a host that will take 39 `out` beats and four responses. -/
def ready : State := { State.reset with outTake := 39, rspTake := 4, opa := addrA false, opb := addrB false }

/-- `ready` with one command offered. -/
def offered (w : Word) : State := { ready with cmdQ := [⟨w, addrA false, addrB false⟩] }

/-- `ready` holding the PDU of header `hd` whose payload begins `11 22`. -/
def held (hd : Header) : State := { ready with pv := true, phdr := hd, pay := [(0, 0x11), (1, 0x22)] }

/-- `ready` with the command of the word `w` in progress. -/
def running (w : Word) : State := { ready with busy := true, word := w }

/-- The next state, if there is one. -/
def next? : Host.Outcome State Fault Refusal → Option State
  | .next t => some t
  | .fault _ => none
  | .refused _ => none

/-- What a host sees of a state: `H`, the flags and the responses. -/
structure View where
  h : Header
  pv : Bool
  fatal : Bool
  rsp : List Response
  deriving DecidableEq, Repr

/-- The view after one step. -/
def seen (s : State) : Option View := (next? (step s)).map (fun t => ⟨t.h, t.pv, t.fatal, t.rspLog⟩)

/-- The view after one command that answers `st / d` and leaves `H = h`, with the slot empty. -/
def gives (h : Header) (st : Status) (d : BitVec 16) : Option View := some ⟨h, false, decide (st = .fatal), [⟨st, d⟩]⟩

/-- The view after the word `w` with `H = h` before. -/
def after (h : Header) (w : Word) : Option View := seen { offered w with h := h }

/-- The header an assembling command leaves, if it fills the slot, and its responses. -/
def assembled (i : Instr) (s : State) : Option (Option Header × List Response) :=
  (next? (exec i s)).map (fun t => (if t.pv then some t.phdr else none, t.rspLog))

/-! ## Well-formedness -/

/-- Each check of WellFormed refuses an ill-formed command and passes the largest operand. -/
theorem test_wellFormed_smoke :
    (Instr.hdrSetLen 256).wellFormed = false ∧ (Instr.asmConnUndir 256).wellFormed = false
    ∧ (Instr.asmNonconnUndir 256).wellFormed = false ∧ (Instr.asmScannableUndir 256).wellFormed = false
    ∧ (Instr.asmBeacon 256).wellFormed = false ∧ (Instr.asmDiscoverable 256).wellFormed = false
    ∧ (Instr.hdrSetLen 255).wellFormed = true ∧ (Instr.asmConnUndir 255).wellFormed = true := by decide

/-! ## Decoding: a word per constructor, written out from R69 and R70 -/

theorem test_decode_header_words :
    decode 0x00001F10 = .command (.hdrNew 0x1F) ∧ decode 0x00C6BF11 = .command (.hdrParse 0xBF 0xC6)
    ∧ decode 0x00000012 = .command .hdrBits ∧ decode 0x00000013 = .command .hdrType
    ∧ decode 0x00000014 = .command .hdrTxRnd ∧ decode 0x00000115 = .command (.hdrSetTx true)
    ∧ decode 0x00000016 = .command .hdrRxRnd ∧ decode 0x00000017 = .command (.hdrSetRx false)
    ∧ decode 0x00000018 = .command .hdrLen ∧ decode 0x0000FF19 = .command (.hdrSetLen 255) := by decide

theorem test_decode_type_words :
    decode 0x00000F20 = .command (.ptyDec 0xF) ∧ decode 0x00001221 = .command (.ptyEnc 0x12) := by decide

theorem test_decode_assembler_words :
    decode 0x00000340 = .command (.asmConnUndir 3) ∧ decode 0x00000041 = .command .asmConnDir
    ∧ decode 0x0000FF42 = .command (.asmNonconnUndir 255) ∧ decode 0x00000043 = .command .asmScanReq
    ∧ decode 0x00000044 = .command .asmScanRsp ∧ decode 0x00000146 = .command (.asmScannableUndir 1)
    ∧ decode 0x00000248 = .command (.asmBeacon 2) ∧ decode 0x00000149 = .command (.asmDiscoverable 1) :=
  ⟨rfl, rfl, rfl, rfl, rfl, rfl, rfl, rfl⟩

theorem test_decode_reader_words :
    decode 0x00000050 = .command .pduHeader ∧ decode 0x00000051 = .command .pduPayload
    ∧ decode 0x00000052 = .command .pduFrame := by decide

/-- Vectors I-1 to I-9, H-18, H-19, T-10, T-15, A-17, A-20, A-26, B-8: none is a command. -/
theorem test_decode_illegal_words :
    ([0x00000000, 0xFFFFFFFF, 0x01000012, 0x00000112, 0x00000047, 0x0000001A, 0x00000022, 0x00000053, 0x01FFFF11,
      0x00000215, 0x00002010, 0x00001020, 0x00002021, 0x00000141, 0x00000045, 0x00010040, 0x00000152].map
      (fun w => (decode w).instr?)) = List.replicate 17 none := rfl

/-- The host's view of the decoder agrees, on a 32-bit row. -/
theorem test_decodeTableWord : decodeTableWord 32 0x2619 = some (.hdrSetLen 38) := by decide

/-! ## Reset -/

theorem test_reset_memory_wf : State.reset.pay.wf = true := by decide

/-- With nothing offered the block idles. -/
theorem test_reset_idles : next? (step State.reset) = some State.reset := by decide

/-- The word placed by withFetchWord runs on the next step: HDR.BITS after reset answers 0 / 0x0000 (F-3). -/
theorem test_withFetchWord_runs :
    seen (State.reset.withFetchWord 32 0x12) = gives 0 .ok 0 := by decide

/-! ## Header codec -/

/-- H-1, H-3, H-4. -/
theorem test_hdrNew :
    after 0xFFFF 0x00000010 = gives 0x0000 .ok 0
    ∧ after 0 0x00001F10 = gives 0x000F .ok 0
    ∧ after 0 0x00001210 = gives 0x0002 .ok 0 := by decide

/-- P5 step 9, and H-5 with I-10. -/
theorem test_hdrParse :
    after 0 0x00C6BF11 = gives 0xC6BF .ok 0
    ∧ after 0 0x00FFFF11 = gives 0xFFFF .ok 0 := by decide

/-- H-6: the getters on a header of ones. -/
theorem test_getters_ones :
    after 0xFFFF 0x13 = gives 0xFFFF .ok 0x001F
    ∧ after 0xFFFF 0x14 = gives 0xFFFF .ok 0x0001
    ∧ after 0xFFFF 0x16 = gives 0xFFFF .ok 0x0001
    ∧ after 0xFFFF 0x18 = gives 0xFFFF .ok 0x003F
    ∧ after 0xFFFF 0x12 = gives 0xFFFF .ok 0xFFFF := by decide

/-- H-7: reserved bits are visible only through HDR.BITS. -/
theorem test_getters_reserved :
    after 0xC030 0x13 = gives 0xC030 .ok 0
    ∧ after 0xC030 0x14 = gives 0xC030 .ok 0
    ∧ after 0xC030 0x16 = gives 0xC030 .ok 0
    ∧ after 0xC030 0x18 = gives 0xC030 .ok 0
    ∧ after 0xC030 0x12 = gives 0xC030 .ok 0xC030 := by decide

/-- H-16, H-17 and the last two commands of H-14. -/
theorem test_hdrSetTx_hdrSetRx :
    after 0x8A46 0x00000015 = gives 0x8A06 .ok 0
    ∧ after 0x8A46 0x00000117 = gives 0x8AC6 .ok 0
    ∧ after 0x2540 0x00000115 = gives 0x2540 .ok 0
    ∧ after 0xC6FF 0x00000015 = gives 0xC6BF .ok 0
    ∧ after 0xC6BF 0x00000017 = gives 0xC63F .ok 0 := by decide

/-- H-8, H-9, H-15 and the first command of H-14. -/
theorem test_hdrSetLen_in_range :
    after 0 0x00000619 = gives 0x0600 .ok 0
    ∧ after 0 0x00002519 = gives 0x2500 .ok 0
    ∧ after 0x8A46 0x00002519 = gives 0xA546 .ok 0
    ∧ after 0xFFFF 0x00000619 = gives 0xC6FF .ok 0 := by decide

/-- H-10 to H-13. -/
theorem test_hdrSetLen_halts :
    after 0 0x00000519 = gives 0x0000 .fatal 0x0005
    ∧ after 0 0x00002619 = gives 0x0000 .fatal 0x0026
    ∧ after 0x2500 0x00000019 = gives 0x2500 .fatal 0x0000
    ∧ after 0 0x0000FF19 = gives 0x0000 .fatal 0x00FF := by decide

/-! ## Type conversion -/

/-- T-1, T-7, T-8, T-9. -/
theorem test_ptyDec :
    after 0 0x00000020 = gives 0 .ok 0x0000
    ∧ after 0 0x00000620 = gives 0 .ok 0x0006
    ∧ after 0 0x00000720 = gives 0 .ok 0x0017
    ∧ after 0 0x00000F20 = gives 0 .ok 0x001F := by decide

/-- T-11 to T-14. -/
theorem test_ptyEnc :
    after 0 0x00000621 = gives 0 .ok 0x0006
    ∧ after 0 0x00001921 = gives 0 .ok 0x0009
    ∧ after 0 0x00001221 = gives 0 .ok 0x0002
    ∧ after 0 0x00000921 = gives 0 .ok 0x0009 := by decide

/-! ## Assembler -/

/-- A-1 and A-2. -/
theorem test_asmConnUndir_empty :
    assembled (.asmConnUndir 0) ready = some (some 0x0600, [⟨.ok, 0⟩])
    ∧ assembled (.asmConnUndir 0) { ready with opa := addrA true } = some (some 0x0640, [⟨.ok, 0⟩]) := by decide

/-- A-21: empty elements are legal and write nothing. -/
theorem test_asmConnUndir_empty_elements :
    (next? (exec (.asmConnUndir 3) { ready with adQ := [0x00, 0x00, 0x01, 0x09] })).map (fun t => (t.phdr, payBytes t 8))
      = some (0x0700, [0x11, 0x22, 0x33, 0x44, 0x55, 0x66, 0x09, 0x00]) := by decide

/-- A-3: the transport length byte is not stored. -/
theorem test_asmNonconnUndir_one_element :
    (next? (exec (.asmNonconnUndir 1)
        { ready with opa := addrA true, adQ := [0x04, 0x03, 0x09, 0x48, 0x69, 0x77] })).map
        (fun t => (t.phdr, payBytes t 10, t.adQ))
      = some (0x0A42, [0x11, 0x22, 0x33, 0x44, 0x55, 0x66, 0x03, 0x09, 0x48, 0x69], [0x77]) := by decide

/-- A-9: 31 bytes fit exactly. -/
theorem test_asmScannableUndir_31_bytes :
    assembled (.asmScannableUndir 1)
        { ready with opa := addrA true, adQ := 0x1F :: 0x1E :: List.replicate 30 0xAA } = some (some 0x2546, [⟨.ok, 0⟩]) := by
  decide

/-- A-10: one byte too many, and all 33 bytes are taken. -/
theorem test_asmScannableUndir_32_bytes :
    (next? (exec (.asmScannableUndir 1)
        { ready with opa := addrA true, adQ := 0x20 :: 0x1F :: List.replicate 31 0xAA })).map
        (fun t => (t.pv, t.rspLog, t.adQ)) = some (false, [⟨.capacity, 0⟩], []) := by decide

/-- A-22: assembly stops at the first element that does not fit, and the whole sequence is taken. -/
theorem test_asmConnUndir_third_not_tried :
    (next? (exec (.asmConnUndir 3)
        { ready with adQ := 0x1E :: (List.replicate 30 0x01 ++ [0x02, 0x02, 0x02, 0x01, 0x03]) })).map
        (fun t => (t.pv, t.rspLog, t.adQ)) = some (false, [⟨.capacity, 0⟩], []) := by decide

/-- A-5 and A-23. -/
theorem test_asmBeacon :
    assembled (.asmBeacon 0) ready = some (some 0x0902, [⟨.ok, 0⟩])
    ∧ assembled (.asmBeacon 2)
        { ready with
          adQ := 0x0E :: 0x0D :: (List.replicate 13 0x77 ++ 0x0E :: 0x0D :: List.replicate 13 0x88) }
      = some (some 0x2502, [⟨.ok, 0⟩]) := by decide

/-- A-6, A-11 and A-12. -/
theorem test_asmDiscoverable :
    assembled (.asmDiscoverable 0) ready = some (some 0x0900, [⟨.ok, 0⟩])
    ∧ assembled (.asmDiscoverable 1) { ready with adQ := 0x1C :: 0x1B :: List.replicate 27 0x55 }
      = some (some 0x2500, [⟨.ok, 0⟩])
    ∧ assembled (.asmDiscoverable 1) { ready with adQ := 0x1D :: 0x1C :: List.replicate 28 0x55 }
      = some (none, [⟨.capacity, 0⟩]) := by decide

/-- A-13 to A-16, headers. -/
theorem test_asmConnDir_headers :
    assembled .asmConnDir { ready with opa := addrA false, opb := addrB false } = some (some 0x0C01, [⟨.ok, 0⟩])
    ∧ assembled .asmConnDir { ready with opa := addrA true, opb := addrB false } = some (some 0x0C41, [⟨.ok, 0⟩])
    ∧ assembled .asmConnDir { ready with opa := addrA false, opb := addrB true } = some (some 0x0C81, [⟨.ok, 0⟩])
    ∧ assembled .asmConnDir { ready with opa := addrA true, opb := addrB true } = some (some 0x0CC1, [⟨.ok, 0⟩]) :=
  ⟨rfl, rfl, rfl, rfl⟩

/-- A-13, payload. -/
theorem test_asmConnDir_payload :
    (next? (exec .asmConnDir ready)).map (fun t => payBytes t 13)
      = some [0x11, 0x22, 0x33, 0x44, 0x55, 0x66, 0xA1, 0xA2, 0xA3, 0xA4, 0xA5, 0xA6, 0x00] := by decide

/-- A-18, A-19 and A-25: the earlier PDU stays. -/
theorem test_asmScan :
    assembled .asmScanReq (held 0x0600) = some (some 0x0600, [⟨.unsupported, 0⟩])
    ∧ assembled .asmScanRsp (held 0x0600) = some (some 0x0600, [⟨.unsupported, 0⟩])
    ∧ assembled .asmScanReq ready = some (none, [⟨.unsupported, 0⟩]) := by decide

/-! ## Buffer readers -/

/-- B-1, and the header of a held PDU. -/
theorem test_pduHeader :
    (next? (exec .pduHeader ready)).map (·.rspLog) = some [⟨.noPdu, 0⟩]
    ∧ (next? (exec .pduHeader (held 0x0902))).map (·.rspLog) = some [⟨.ok, 0x0902⟩] := by decide

/-- Scenario S-1 step 3, with the payload `11 22 00 00 00 00`, and B-2. -/
theorem test_pduPayload :
    (next? (exec .pduPayload (held 0x0600))).map (fun t => (t.outLog, t.rspLog))
      = some ([⟨0x11, false⟩, ⟨0x22, false⟩, ⟨0, false⟩, ⟨0, false⟩, ⟨0, false⟩, ⟨0, true⟩], [⟨.ok, 6⟩])
    ∧ (next? (exec .pduPayload ready)).map (fun t => (t.outLog, t.rspLog)) = some ([], [⟨.noPdu, 0⟩]) := by decide

/-- B-4 (payload `11 22 00 00 00 00`) and B-3. -/
theorem test_pduFrame :
    (next? (exec .pduFrame (held 0x0640))).map (fun t => (t.outLog, t.rspLog))
      = some ([⟨0x40, false⟩, ⟨0x06, false⟩, ⟨0x11, false⟩, ⟨0x22, false⟩, ⟨0, false⟩, ⟨0, false⟩, ⟨0, false⟩,
          ⟨0, true⟩], [⟨.ok, 8⟩])
    ∧ (next? (exec .pduFrame ready)).map (fun t => (t.outLog, t.rspLog)) = some ([], [⟨.noPdu, 0⟩]) := by decide

/-- A host that takes three beats: the command holds with three sent, and goes on to the same bytes. -/
theorem test_pduPayload_held :
    (next? (exec .pduPayload { held 0x0600 with outTake := 3 })).map (fun t => (t.outSent, t.rspLog)) = some (3, [])
    ∧ ((next? (exec .pduPayload { held 0x0600 with outTake := 3 })).bind
        (fun t => next? (exec .pduPayload { t with outTake := 3 }))).map (fun t => (t.outLog.length, t.rspLog))
      = some (6, [⟨.ok, 6⟩]) := by decide

/-! ## The halt and reset -/

/-- F-1 and F-2: halted, the next command is never accepted, and the pin still shows the held PDU. -/
theorem test_halt :
    step { offered 0x00000052 with fatal := true, pv := true } = .fault .fatalHalt
    ∧ pinPduValid { offered 0x00000052 with fatal := true, pv := true } = true := ⟨rfl, rfl⟩

/-- F-3. -/
theorem test_reset_leaves_halt :
    ((next? (step { offered 0x12 with fatal := true, h := 0x2500, rst := true })).bind (fun t => seen t))
      = gives 0 .ok 0 := by decide

/-! ## Witnesses: for each statement with hypotheses, a case that meets them -/

/-- DecodeInvertsEncode, at the largest operand. -/
theorem test_witness_DecodeInvertsEncode : (Instr.hdrSetLen 255).wellFormed = true := rfl

/-- EncodeInvertsDecode. -/
theorem test_witness_EncodeInvertsDecode : decode 0x0000FF19 = .command (.hdrSetLen 255) := rfl

/-- DecoderIsTheOpcodeMap: a word that decodes and a row that covers it. -/
theorem test_witness_DecoderIsTheOpcodeMap :
    decode 0x0000FF19 = .command (.hdrSetLen 255)
    ∧ (OpcodeRow.mk "HDR.SETLEN" 0x19 0xFFFF00FF) ∈ opcodeTable
    ∧ (0x0000FF19#32 &&& 0xFFFF00FF#32) = 0x19#32 := ⟨rfl, by decide, rfl⟩

/-- IllegalWordsRefusedInOrder: one word for each of the three reasons. -/
theorem test_witness_IllegalWordsRefusedInOrder :
    (0x01000012#32).extractLsb' 24 8 ≠ 0
    ∧ ((0x00000045#32).extractLsb' 24 8 = 0
      ∧ ∀ r ∈ opcodeTable, r.pattern.extractLsb' 0 8 ≠ (0x00000045#32).extractLsb' 0 8)
    ∧ ((0x00012619#32).extractLsb' 24 8 = 0 ∧ (OpcodeRow.mk "HDR.SETLEN" 0x19 0xFFFF00FF) ∈ opcodeTable
      ∧ (0x00000019#32).extractLsb' 0 8 = (0x00012619#32).extractLsb' 0 8
      ∧ (0x00012619#32 &&& 0xFFFF00FF#32) ≠ 0x19#32) := by decide

/-- AddressOperandLayout: the number of the operand is address `A`, random. -/
theorem test_witness_AddressOperandLayout :
    addrA true = BitVec.ofNat 49 (0x11 + 2 ^ 8 * 0x22 + 2 ^ 16 * 0x33 + 2 ^ 24 * 0x44 + 2 ^ 32 * 0x55 + 2 ^ 40 * 0x66
      + 2 ^ 48 * true.toNat) := by decide

/-- Every statement whose only hypothesis is a host that takes the response (the header and type commands, PDU.HEADER,
ASM.CONN_DIR, ASM.SCAN_REQ, ASM.SCAN_RSP), with PDU.HEADER's slot full and empty, and the four responses of
SettersCommute. -/
theorem test_witness_response_taken :
    0 < ready.rspTake ∧ 4 ≤ ready.rspTake ∧ (held 0x0600).pv = true ∧ 0 < (held 0x0600).rspTake ∧ ready.pv = false := by
  decide

/-- HdrTypeReturnsKind: the last named code and the first unknown one. -/
theorem test_witness_HdrTypeReturnsKind :
    (({ ready with h := 0xFFF6 } : State).h.extractLsb' 0 4).toNat ≤ 6
    ∧ 7 ≤ (({ ready with h := 0xFFF7 } : State).h.extractLsb' 0 4).toNat := by decide

/-- HdrSetLenReplacesOrHalts: the four lengths at the two bounds, the largest operand, and a halted state. -/
theorem test_witness_HdrSetLenReplacesOrHalts :
    (255 ≤ 255) ∧ (6 ≤ 6 ∧ 6 ≤ 37) ∧ (6 ≤ 37 ∧ 37 ≤ 37) ∧ (5 < 6 ∨ 37 < 5) ∧ (38 < 6 ∨ 37 < 38) ∧ 0 < ready.rspTake
    ∧ ({ ready with fatal := true } : State).fatal = true ∧ ({ ready with fatal := true } : State).rst = false := by decide

/-- HdrCommandsTouchHeaderOnly: a length that halts, and a getter. -/
theorem test_witness_HdrCommandsTouchHeaderOnly :
    (isHdr (.hdrSetLen 38) = true
      ∧ exec (.hdrSetLen 38) ready = .next (answered { ready with fatal := true } .fatal 38)
      ∧ (answered { ready with fatal := true } .fatal 38).fatal ≠ ready.fatal)
    ∧ isHdr .hdrBits = true ∧ isHdrGetter .hdrBits = true
    ∧ exec .hdrBits ready = .next (answered ready .ok 0) := ⟨⟨rfl, rfl, by decide⟩, rfl, rfl, rfl⟩

/-- SettersCommute: another order. -/
theorem test_witness_SettersCommute :
    List.Perm [Instr.hdrSetLen 37, .hdrSetTx true, .hdrSetRx false] [.hdrSetTx true, .hdrSetRx false, .hdrSetLen 37] := by
  decide

/-- MemReadGivesWhatWasWritten: the whole buffer, an index on each side of a written run, and the two sides of its end. -/
theorem test_witness_MemReadGivesWhatWasWritten :
    (0 + (List.replicate 37 (0xAA : Byte)).length ≤ 37) ∧ (1 + [(0xAA : Byte), 0xBB].length ≤ 37 ∧ 0 < 1)
    ∧ 1 + [(0xAA : Byte), 0xBB].length ≤ 3 ∧ (36 + 1 ≤ 37) ∧ 37 < 36 + 2 := by decide

/-- WriterIsAllOrNothing: one byte left takes one byte and refuses two, and a full buffer takes the empty slice. -/
theorem test_witness_WriterIsAllOrNothing :
    ({ ready with pos := 36 } : State).pos ≤ 37 ∧ [(0xAA : Byte)].length ≤ 37 - 36 ∧ 37 - 36 < [(0xAA : Byte), 0xBB].length
    ∧ ({ ready with pos := 37 } : State).pos ≤ 37 ∧ ([] : List Byte).length ≤ 37 - 37 := by decide

/-- ElementSequenceReadWhole: an empty and a one-byte element, one byte short. -/
theorem test_witness_ElementSequenceReadWhole :
    (∀ e ∈ [([] : List Byte), [0x09]], e.length ≤ 255) ∧ 2 < (frameElems [[], [0x09]]).length := by decide

/-- PlainConstructorsAssemble: 31 bytes fit, 32 do not; and the largest count. -/
theorem test_witness_PlainConstructorsAssemble :
    (255 ≤ 255) ∧ [List.replicate 31 (0xAA : Byte)].length = 1
    ∧ (∀ e ∈ [List.replicate 31 (0xAA : Byte)], e.length ≤ 255)
    ∧ ready.adTaken ++ ({ ready with adQ := 0x1F :: List.replicate 31 0xAA } : State).adQ
      = frameElems [List.replicate 31 0xAA] ++ []
    ∧ elemTotal [List.replicate 31 (0xAA : Byte)] ≤ 31 ∧ 31 < elemTotal [List.replicate 32 (0xAA : Byte)] := by decide

/-- FlaggedConstructorsAssemble: 28 bytes fit, 29 do not. -/
theorem test_witness_FlaggedConstructorsAssemble :
    ready.adTaken ++ ({ ready with adQ := 0x1C :: List.replicate 28 0x55 } : State).adQ
      = frameElems [List.replicate 28 0x55] ++ []
    ∧ elemTotal [List.replicate 28 (0x55 : Byte)] ≤ 28 ∧ 28 < elemTotal [List.replicate 29 (0x55 : Byte)] := by decide

/-- AssemblyIgnoresBoundaries and FlaggedEqualsPlainWithFlags: the same three bytes cut in two ways, for the last of the
five commands. -/
theorem test_witness_AssemblyIgnoresBoundaries :
    Instr.asmDiscoverable ∈
      [Instr.asmConnUndir, Instr.asmNonconnUndir, Instr.asmScannableUndir, Instr.asmBeacon, Instr.asmDiscoverable]
    ∧ (∀ e ∈ [[(0x01 : Byte), 0x02], [0x03]], e.length ≤ 255) ∧ (∀ f ∈ [[(0x01 : Byte)], [0x02, 0x03]], f.length ≤ 255)
    ∧ [[(0x01 : Byte), 0x02], [0x03]].flatten = [[(0x01 : Byte)], [0x02, 0x03]].flatten
    ∧ ready.adTaken = [] ∧ 0 < ready.rspTake := ⟨by simp, by decide⟩

/-- FrameOfAssembledPdu: the largest PDU of a plain and of a flagged command, with a byte behind the sequence, and a host
that takes exactly what the two commands need. -/
theorem test_witness_FrameOfAssembledPdu :
    (Instr.asmBeacon, (0x02 : Byte), [(0x02 : Byte), Config.flagsAdType, Config.flagsBroadcast]) ∈
      [(Instr.asmConnUndir, 0x00, []), (Instr.asmNonconnUndir, 0x02, []), (Instr.asmScannableUndir, 0x06, []),
       (Instr.asmBeacon, 0x02, [0x02, Config.flagsAdType, Config.flagsBroadcast]),
       (Instr.asmDiscoverable, 0x00, [0x02, Config.flagsAdType, Config.flagsDiscoverable])]
    ∧ (∀ e ∈ [List.replicate 31 (0xAA : Byte), List.replicate 28 0x55], e.length ≤ 255)
    ∧ ([] : List Byte).length + elemTotal [List.replicate 31 (0xAA : Byte)] ≤ 31
    ∧ [(0x02 : Byte), Config.flagsAdType, Config.flagsBroadcast].length + elemTotal [List.replicate 28 (0x55 : Byte)] ≤ 31
    ∧ ready.adTaken ++ ({ ready with adQ := 0x1C :: (List.replicate 28 0x55 ++ [0x77]) } : State).adQ
      = frameElems [List.replicate 28 0x55] ++ [0x77]
    ∧ 2 ≤ ({ ready with rspTake := 2 } : State).rspTake ∧ 39 ≤ ready.outTake := ⟨by simp, by decide⟩

/-- FailedAssemblyFailsAgain (F-5). -/
theorem test_witness_FailedAssemblyFailsAgain :
    isAssembling (.asmConnUndir 1) = true
    ∧ ∃ t, exec (.asmConnUndir 1) { ready with adQ := 0x20 :: List.replicate 32 0xAA } = .next t
      ∧ t.rspLog = ready.rspLog ++ [{ status := .capacity, data := 0 }] := ⟨rfl, _, rfl, rfl⟩

/-- PduPayloadEmitsPayload and PduFrameEmitsFrame: the longest PDU with exactly the beats it needs, and the empty slot. -/
theorem test_witness_PduReaders :
    (37 = ((held 0x2500).phdr.extractLsb' 8 6).toNat) ∧ (held 0x2500).outSent = 0 ∧ 0 < (held 0x2500).rspTake
    ∧ (held 0x2500).pv = true ∧ 37 ≤ ({ held 0x2500 with outTake := 37 } : State).outTake
    ∧ 37 + 2 ≤ ({ held 0x2500 with outTake := 39 } : State).outTake
    ∧ ready.pv = false ∧ ready.outSent = 0 ∧ 0 = (ready.phdr.extractLsb' 8 6).toNat := by decide

/-- ReadersStopPastTheBuffer: the first length that is too long. -/
theorem test_witness_ReadersStopPastTheBuffer :
    (held 0x2600).pv = true ∧ 37 < ((held 0x2600).phdr.extractLsb' 8 6).toNat := by decide

/-- ReadingDoesNotConsume. -/
theorem test_witness_ReadingDoesNotConsume :
    isPdu .pduFrame = true
    ∧ ∃ t, exec .pduFrame { held 0x0600 with busy := true } = .next t ∧ t.busy = false ∧ (held 0x0600).outSent = 0 :=
  ⟨rfl, _, rfl, rfl, rfl⟩

/-- OnlyHeaderCommandsWriteH. -/
theorem test_witness_OnlyHeaderCommandsWriteH :
    ∃ t, exec (.hdrNew 0x06) ready = .next t ∧ t.h ≠ ready.h := ⟨_, rfl, by decide⟩

/-- OnlyAssemblersWriteSlot: a command that is none, and the capacity failure of a held slot. -/
theorem test_witness_OnlyAssemblersWriteSlot :
    (isAssembling .asmScanReq = false ∧ ∃ t, exec .asmScanReq (held 0x0600) = .next t)
    ∧ ∃ t, exec (.asmConnUndir 1) { held 0x0600 with adQ := 0x20 :: List.replicate 32 0xAA } = .next t
      ∧ t.pv = false ∧ (held 0x0600).pv = true := ⟨⟨rfl, _, rfl⟩, _, rfl, rfl, rfl⟩

/-- OnlySetLenHalts: the two nearest bad lengths, a halting step, and a step out of the halt. -/
theorem test_witness_OnlySetLenHalts :
    ((5 < 6 ∨ 37 < 5) ∧ (38 < 6 ∨ 37 < 38) ∧ 0 < ready.rspTake)
    ∧ (∃ t, step (offered 0x00002619) = .next t ∧ (offered 0x00002619).fatal = false ∧ t.fatal = true)
    ∧ ∃ t, step { ready with fatal := true, rst := true } = .next t :=
  ⟨by decide, ⟨_, rfl, rfl, rfl⟩, _, rfl⟩

/-- HaltedAcceptsNothing (its first clause as in test_witness_OnlySetLenHalts) and ResetAbandonsAndClears: halted without and with a reset pulse, and a pulse that strikes a
command in progress. -/
theorem test_witness_halt_and_reset :
    (({ offered 0x12 with fatal := true } : State).fatal = true ∧ ({ offered 0x12 with fatal := true } : State).rst = false)
    ∧ (({ offered 0x12 with fatal := true, rst := true } : State).fatal = true
      ∧ ({ offered 0x12 with fatal := true, rst := true } : State).rst = true)
    ∧ ({ running 0x140 with rst := true, adTaken := [0x05] } : State).rst = true := by decide

/-- EveryStepKeepsInvariant: a state that holds a PDU of length 7 has the invariant, and steps. -/
theorem test_witness_EveryStepKeepsInvariant :
    Inv { held 0x0700 with cmdQ := [⟨0x50, 0, 0⟩] }
    ∧ ∃ t, step { held 0x0700 with cmdQ := [⟨0x50, 0, 0⟩] } = .next t := by
  refine ⟨⟨by decide, by decide, fun _ => ⟨by decide, by decide, by decide, by decide, by decide, by decide, by decide, ?_⟩,
    fun _ => ⟨rfl, rfl⟩, nofun⟩, _, rfl⟩
  intro i h1 h2
  have h3 : 7 ≤ i := h1
  interval_cases i <;> rfl

/-- StepRunsDecodedCommand, IllegalWordAnswered and the idle clause of StepResumesOrIdles. -/
theorem test_witness_Ready :
    Ready (offered 0x0600) ∧ (offered 0x0600).cmdQ = [⟨0x0600, addrA false, addrB false⟩] ∧ 0 < (offered 0x0600).rspTake
    ∧ (∀ r ∈ opcodeTable, (0x0600#32) &&& r.mask ≠ r.pattern)
    ∧ Ready (offered 0x12) ∧ (offered 0x12).cmdQ = [⟨0x12, addrA false, addrB false⟩] ∧ decode 0x12 = .command .hdrBits
    ∧ Ready ready ∧ ready.cmdQ = [] :=
  ⟨⟨rfl, rfl, rfl, rfl, rfl⟩, rfl, by decide, by decide, ⟨rfl, rfl, rfl, rfl, rfl⟩, rfl, rfl, ⟨rfl, rfl, rfl, rfl, rfl⟩, rfl⟩

/-- StepResumesOrIdles: a command in progress. -/
theorem test_witness_StepResumesOrIdles :
    (running 0x140).rst = false ∧ (running 0x140).fatal = false ∧ (running 0x140).busy = true
    ∧ decode (running 0x140).word = .command (.asmConnUndir 1) := ⟨rfl, rfl, rfl, rfl⟩

/-- MissingElementBytesHold: one byte of a two-byte element is there. -/
theorem test_witness_MissingElementBytesHold :
    (Instr.asmConnUndir 1).nelem? = some 1
    ∧ adReadSeq 1 (({ running 0x140 with adTaken := [0x02], adQ := [0xAA] } : State).adTaken ++ [0xAA]) = none := by decide

/-- UntakenResponseHolds, HoldLosesNothing and OneResponsePerCommand: HDR.NEW with no response taken; and the same command
when it is. -/
theorem test_witness_UntakenResponseHolds :
    ({ running 0x0610 with rspTake := 0 } : State).rspTake = 0
    ∧ ({ running 0x0610 with rspTake := 0 } : State).busy = true
    ∧ exec (.hdrNew 0x06) { running 0x0610 with rspTake := 0 } = .next { running 0x0610 with rspTake := 0 }
    ∧ ∃ t, exec (.hdrNew 0x06) (running 0x0610) = .next t ∧ t.busy = false := ⟨rfl, rfl, rfl, _, rfl, rfl⟩

/-- HoldLosesNothing: a command that holds for want of `ad` bytes. -/
theorem test_witness_HoldLosesNothing :
    ∃ t, (running 0x140).busy = true ∧ exec (.asmConnUndir 1) { running 0x140 with adQ := [0x02, 0xAA] } = .next t
      ∧ t.busy = true := ⟨_, rfl, rfl, rfl⟩

/-- EveryCommandIsAnswered: an element-taking command with its sequence offered. -/
theorem test_witness_EveryCommandIsAnswered :
    Inv { offered 0x140 with adQ := [0x01, 0xAA] } ∧ Ready { offered 0x140 with adQ := [0x01, 0xAA] }
    ∧ ({ offered 0x140 with adQ := [0x01, 0xAA] } : State).cmdQ = [⟨0x140, addrA false, addrB false⟩]
    ∧ 39 ≤ (offered 0x140).outTake ∧ 0 < (offered 0x140).rspTake
    ∧ (∀ i n, decode 0x140 = .command i → i.nelem? = some n → (adReadSeq n [0x01, 0xAA]).isSome = true) := by
  refine ⟨⟨rfl, by decide, nofun, fun _ => ⟨rfl, rfl⟩, nofun⟩, ⟨rfl, rfl, rfl, rfl, rfl⟩, rfl, by decide, by decide, ?_⟩
  intro i n h hn
  have hd : decode 0x140 = .command (.asmConnUndir 1) := rfl
  rw [hd] at h
  cases h
  cases hn
  rfl

/-- ResetStateIsUsable: an element-taking word with its sequence, as the first command. -/
theorem test_witness_ResetStateIsUsable :
    decode (CmdBeat.mk 0x140 0 0).word = .command (.asmConnUndir 1) ∧ isAssembling (.asmConnUndir 1) = true
    ∧ ∀ i n, decode (CmdBeat.mk 0x140 0 0).word = .command i → i.nelem? = some n →
        (adReadSeq n [0x01, 0xAA]).isSome = true := by
  refine ⟨rfl, rfl, ?_⟩
  intro i n h hn
  have hd : decode (CmdBeat.mk 0x140 0 0).word = .command (.asmConnUndir 1) := rfl
  rw [hd] at h
  cases h
  cases hn
  rfl

/-- The other clauses of ResetStateIsUsable: a reader and a getter as the first command, which take no sequence. -/
theorem test_witness_ResetStateIsUsable_readers :
    (decode 0x52 = .command .pduFrame ∧ isPdu .pduFrame = true ∧ Instr.pduFrame.nelem? = none)
    ∧ decode 0x13 = .command .hdrType ∧ isHdrGetter .hdrType = true ∧ Instr.hdrType.nelem? = none :=
  ⟨⟨rfl, rfl, rfl⟩, rfl, rfl, rfl⟩

/-- UnspecifiedStateNeverShows: two different states that agree on what a host can see. -/
theorem test_witness_UnspecifiedStateNeverShows :
    SameVisible ready { ready with pos := 37, phdr := 0xFFFF, pay := [(3, 0x55)], fresh := 9 }
    ∧ ready ≠ { ready with pos := 37, phdr := 0xFFFF, pay := [(3, 0x55)], fresh := 9 } :=
  ⟨⟨rfl, rfl, nofun, nofun, rfl, rfl, nofun, rfl, rfl, rfl, rfl, rfl, rfl, rfl, rfl, rfl⟩, by decide⟩

/-- UnusedOperandsIgnored: a command with no operand, and one that reads only operand A. -/
theorem test_witness_UnusedOperandsIgnored :
    readsOpa (.hdrNew 0x06) = false ∧ Instr.asmConnUndir 1 ≠ .asmConnDir := by decide

/-- PinsFollowBeatOrder: idle, waiting for `ad`, with `out` left, and with the response left. -/
theorem test_witness_PinsFollowBeatOrder :
    ready.busy = false ∧ pinAdReady (running 0x140) = true
    ∧ pinOutValid { held 0x0600 with busy := true, word := 0x51 } = true
    ∧ pinRspValid { held 0x0600 with busy := true, word := 0x51, outSent := 6 } = true := by decide

/-- ChannelPinsShowTheBeat: a reader with its payload left (the first beat is `11`), and an illegal word (status 4). -/
theorem test_witness_ChannelPinsShowTheBeat :
    (pinOutValid { held 0x0600 with busy := true, word := 0x51 } = true ∧ 0 < (held 0x0600).outTake
      ∧ pinOut { held 0x0600 with busy := true, word := 0x51 } = some ⟨0x11, false⟩
      ∧ ∃ t, runWord { held 0x0600 with busy := true, word := 0x51 } = .next t)
    ∧ pinRspValid (running 0x45) = true ∧ 0 < (running 0x45).rspTake ∧ pinRsp (running 0x45) = some (4, 0)
    ∧ ∃ t, runWord (running 0x45) = .next t := ⟨⟨rfl, by decide, rfl, _, rfl⟩, rfl, by decide, rfl, _, rfl⟩

end Sys2Proof.Tests
end

/-! Family 00_scope: one transaction per command (spec/00_scope.md R7), however the host spreads its beats over steps
(spec/10_state.md R30, spec/70_reset_and_hazards.md R197). The key notion is `Progress`: beats moved early, which the
command then no longer waits for. A hold leaves progress and nothing else (`exec_held`), what the host offers later keeps
it (`Progress.after_offers`), and the outcome does not depend on it (`Progress.exec_eq`). -/

namespace Sys2Proof.Proofs

open Sys2Proof.Machine Sys2Proof.Laws

variable {i : Instr} {s t : State}

/-! ### What the host offers later -/

/-- The host offers `bytes` more on `ad` and is ready for `beats` more `out` beats and `resps` more responses. -/
def offerMore (s : State) (bytes : List Byte) (beats resps : Nat) : State :=
  { s with adQ := s.adQ ++ bytes, outTake := s.outTake + beats, rspTake := s.rspTake + resps }

theorem offerMore_takeAd (s : State) (taken rest bytes : List Byte) (beats resps : Nat) :
    offerMore (s.takeAd taken rest) bytes beats resps
      = (offerMore s bytes beats resps).takeAd taken (rest ++ bytes) := rfl

theorem offerMore_sendOut {bs : List OutBeat} (bytes : List Byte) (beats resps : Nat) (h : bs.length ≤ s.outTake) :
    offerMore (s.sendOut bs) bytes beats resps = (offerMore s bytes beats resps).sendOut bs := by
  simp only [offerMore, State.sendOut, Nat.sub_add_comm h]

/-! ### Channel operations take no notice of beats moved early -/

theorem sendOut_sendOut (s : State) (bs cs : List OutBeat) : (s.sendOut bs).sendOut cs = s.sendOut (bs ++ cs) := by
  simp only [State.sendOut, List.append_assoc, List.length_append, Nat.add_assoc, Nat.sub_sub]

/-- AdReadSeq sees the bytes taken and the bytes offered as one stream. -/
theorem readElems_takeAd {a q : List Byte} (n : Nat)
    (k : List (List Byte) → State → Host.Outcome State Fault Refusal) (h : a ++ q = s.adTaken ++ s.adQ) :
    (s.takeAd a q).readElems n k = s.readElems n k := by
  have hstream : (s.takeAd a q).adTaken ++ (s.takeAd a q).adQ = s.adTaken ++ s.adQ := h
  cases hseq : adReadSeq n (s.adTaken ++ s.adQ) with
  | none => rw [readElems_held k hseq, readElems_held k (hstream ▸ hseq), hstream]; rfl
  | some p => rw [readElems_complete k hseq, readElems_complete k (hstream ▸ hseq), hstream]; rfl

/-- Emit goes on behind the beats already sent. -/
theorem emit_sendOut_take {m : Nat} (bs : List Byte) (k : State → Host.Outcome State Fault Refusal)
    (hm : m ≤ s.outTake) : (s.sendOut (((outBeats bs).drop s.outSent).take m)).emit bs k = s.emit bs k := by
  generalize hrem : (outBeats bs).drop s.outSent = rem
  have hleft : (outBeats bs).drop (s.sendOut (rem.take m)).outSent = rem.drop m := by
    rw [sendOut_outSent, ← List.drop_drop, hrem, List.length_take, ← List.drop_eq_drop_min]
  have hroom : (s.sendOut (rem.take m)).outTake = s.outTake - min m rem.length := by
    rw [sendOut_outTake, List.length_take]
  by_cases hall : rem.length ≤ s.outTake
  · rw [emit_all (s := s) k (by rwa [hrem]), emit_all k (by rw [hleft, hroom, List.length_drop]; omega),
      hleft, hrem, sendOut_sendOut, List.take_append_drop]
  · have htake : s.outTake = m + (s.sendOut (rem.take m)).outTake := by omega
    rw [emit_held (s := s) k (by rw [hrem]; omega), emit_held k (by rw [hleft, hroom, List.length_drop]; omega),
      hleft, hrem, sendOut_sendOut, ← List.take_add, ← htake]

/-- Respond without its beat: the state is as before. -/
theorem eq_of_respond_held {eff : State} {st : Status} {d : BitVec 16} (h : s.respond eff st d = .next t)
    (hheld : t.busy = true ∨ s.rspTake = 0) : t = s := by
  obtain ⟨-, rfl⟩ | ⟨htake, rfl⟩ := respond_cases h
  · rfl
  · exact absurd htake (by simpa using hheld)

/-- Emit, then respond without its beat: as many of the beats left are sent as the host takes. -/
theorem eq_sendOut_of_emit_held {bs : List Byte} {count : BitVec 16}
    (h : s.emit bs (fun s1 => s1.respond s1 .ok count) = .next t) (hheld : t.busy = true ∨ s.rspTake = 0) :
    t = s.sendOut (((outBeats bs).drop s.outSent).take s.outTake) := by
  by_cases hall : ((outBeats bs).drop s.outSent).length ≤ s.outTake
  · rw [emit_all _ hall] at h
    rw [eq_of_respond_held h hheld, List.take_of_length_le hall]
  · rw [emit_held _ (Nat.lt_of_not_le hall)] at h
    cases h
    rfl

/-! ### Commands that move beats before they answer -/

/-- An element-taking command reads its declared sequence and assembles it (R76, R134 to R138). -/
theorem exec_eq_assembleWith {n : Nat} (hi : i.nelem? = some n) :
    ∃ ty first, ∀ s, exec i s = assembleWith ty first n s := by
  cases i <;> cases hi <;> exact ⟨_, _, fun _ => rfl⟩

theorem readerOf_congr (h : t.phdr = s.phdr) : readerOf t i = readerOf s i := by
  unfold readerOf
  rw [h]

/-- A reader of a held PDU emits what it makes of the payload, then answers the count (R161, R162). -/
theorem exec_eq_emit {f : List Byte → List Byte} {count : BitVec 16} (hi : readerOf s i = some (f, count))
    (hp : s.pv = true) (hl : slotLen s ≤ 37) :
    exec i s = s.emit (f (s.pay.readBytes 0 (slotLen s))) (fun s1 => s1.respond s1 .ok count) := by
  have hslot : exec i s = emitSlot f count s := by cases i <;> cases hi <;> rfl
  have hread : s.memRead 0 (slotLen s) = some (s.pay.readBytes 0 (slotLen s)) := if_pos (by simpa using hl)
  rw [hslot, emitSlot, if_pos hp, hread]

/-! ### Progress -/

/-- `t` is `s` with beats of the command `i` moved early: `ad` bytes of the stream taken, or `out` beats sent that the
host was ready for. The response beat is not among them. -/
inductive Progress (i : Instr) (s : State) : State → Prop
  /-- No beat. -/
  | refl : Progress i s s
  /-- Of the stream, `a` is taken and `q` is still offered. -/
  | ad (n : Nat) (a q : List Byte) (hi : i.nelem? = some n) (h : a ++ q = s.adTaken ++ s.adQ) :
      Progress i s (s.takeAd a q)
  /-- Of the beats left, the first `m` are sent. -/
  | out (f : List Byte → List Byte) (count : BitVec 16) (m : Nat) (hi : readerOf s i = some (f, count))
      (hp : s.pv = true) (hl : slotLen s ≤ 37) (hm : m ≤ s.outTake) :
      Progress i s (s.sendOut (((outBeats (f (s.pay.readBytes 0 (slotLen s)))).drop s.outSent).take m))

/-- The outcome of a command does not depend on progress it has made. -/
theorem Progress.exec_eq (h : Progress i s t) : exec i t = exec i s := by
  cases h with
  | refl => rfl
  | ad n a q hi h =>
    obtain ⟨ty, first, hexec⟩ := exec_eq_assembleWith hi
    rw [hexec, hexec]
    exact readElems_takeAd n _ h
  | out f count m hi hp hl hm =>
    have hi' (bs : List OutBeat) : readerOf (s.sendOut bs) i = some (f, count) := (readerOf_congr rfl).trans hi
    rw [exec_eq_emit hi hp hl, exec_eq_emit (hi' _) hp hl]
    exact emit_sendOut_take _ _ hm

/-- Progress is still progress when the host has offered more. -/
theorem Progress.after_offers (h : Progress i s t) (bytes : List Byte) (beats resps : Nat) :
    Progress i (offerMore s bytes beats resps) (offerMore t bytes beats resps) := by
  cases h with
  | refl => exact .refl
  | ad n a q hi h =>
    rw [offerMore_takeAd]
    exact .ad n a (q ++ bytes) hi (by simp only [offerMore, ← List.append_assoc, h])
  | out f count m hi hp hl hm =>
    rw [offerMore_sendOut _ _ _ (by simp only [List.length_take]; omega)]
    exact .out f count m ((readerOf_congr rfl).trans hi) hp hl (Nat.le_add_right_of_le hm)

/-- A command that goes on without its response has made progress and nothing else (log 8). -/
theorem exec_held (h : exec i s = .next t) (hheld : t.busy = true ∨ s.rspTake = 0) : Progress i s t := by
  have hshape := exec_shape i s
  generalize exec i s = o at h hshape
  cases hshape with
  | header | answer | halt | directed => rw [eq_of_respond_held h hheld]; exact .refl
  | missing n hi hseq => cases h; exact .ad n _ _ hi (List.append_nil _)
  | fit n _ _ _ rest hi _ hseq | full n _ _ _ rest _ hi _ hseq =>
    rw [eq_of_respond_held h hheld]
    obtain ⟨used, hused⟩ := adReadSeq_rest hseq
    exact .ad n _ rest hi (by simp [takenOf, hused])
  | emit f count hi hp hl =>
    rw [eq_sendOut_of_emit_held h hheld]
    exact .out f count _ hi hp hl (Nat.le_refl _)
  | stop => cases h

/-- Settles O51: a command whose response is not taken leaves progress alone, which is none of these fields. -/
theorem untakenResponseHolds : Obligations.UntakenResponseHolds := by
  intro i s t htake h
  cases exec_held h (.inr htake) <;> exact ⟨rfl, rfl, rfl, rfl, rfl, rfl, rfl, rfl⟩

/-- Settles O52: a hold leaves progress, which the later offers keep and the outcome does not depend on. -/
theorem holdLosesNothing : Obligations.HoldLosesNothing := by
  intro i s t bytes beats resps _ h hbusy
  exact ((exec_held h (.inl hbusy)).after_offers bytes beats resps).exec_eq

end Sys2Proof.Proofs

/-! Family 10_state: what every step keeps and what no step shows (spec/10_state.md R20 to R33). The layer below says
once what a step is (`step_reset` to `step_accept`, `step_cases`) and where a command leads (`exec_outcome`): it is held
with progress alone, it ends with one response (`Ending`), or it stops past the buffer. -/

namespace Sys2Proof.Proofs

open Sys2Proof.Machine Sys2Proof.Laws Sys2Proof.Safety

variable {i : Instr} {s t : State}

/-! ### What a step is -/

theorem step_reset (hr : s.rst = true) : step s = .next s.applyReset := if_pos hr

theorem step_halted (hr : s.rst = false) (hf : s.fatal = true) : step s = .fault .fatalHalt := by
  simp [step, cycle, hr, hf]

theorem step_resume (hr : s.rst = false) (hf : s.fatal = false) (hb : s.busy = true) : step s = runWord s := by
  simp [step, cycle, hr, hf, hb]

theorem step_idle (hr : s.rst = false) (hf : s.fatal = false) (hb : s.busy = false) (hq : s.cmdQ = []) :
    step s = .next s := by
  simp [step, cycle, hr, hf, hb, hq]

theorem step_accept {c : CmdBeat} {rest : List CmdBeat} (hr : s.rst = false) (hf : s.fatal = false)
    (hb : s.busy = false) (hq : s.cmdQ = c :: rest) : step s = runWord (s.accept c rest) := by
  simp [step, cycle, hr, hf, hb, hq]

theorem runWord_command (hd : decode s.word = .command i) : runWord s = exec i s := by
  rw [runWord, hd]

theorem runWord_illegal {why : Illegal} (hd : decode s.word = .illegal why) : runWord s = s.respond s .illegal 0 := by
  rw [runWord, hd]
  rfl

/-- `u` is the state at which a step from `s` runs a command: one in progress, or the next one accepted. -/
inductive Runs (s : State) : State → Prop
  | resume (hb : s.busy = true) : Runs s s
  | accept (c : CmdBeat) (rest : List CmdBeat) (hb : s.busy = false) (hq : s.cmdQ = c :: rest) :
      Runs s (s.accept c rest)

theorem Runs.busy {u : State} (h : Runs s u) : u.busy = true := by
  cases h with
  | resume hb => exact hb
  | accept => rfl

theorem Runs.fatal {u : State} (h : Runs s u) : u.fatal = s.fatal := by cases h <;> rfl

/-- A step applies a reset pulse, idles, or runs a command. -/
theorem step_cases (h : step s = .next t) :
    (s.rst = true ∧ t = s.applyReset)
    ∨ s.rst = false ∧ s.fatal = false ∧ (t = s ∨ ∃ u, Runs s u ∧ runWord u = .next t) := by
  cases hr : s.rst with
  | true => rw [step_reset hr] at h; cases h; exact .inl ⟨rfl, rfl⟩
  | false =>
    refine .inr ⟨rfl, ?_⟩
    cases hf : s.fatal with
    | true => rw [step_halted hr hf] at h; cases h
    | false =>
      refine ⟨rfl, ?_⟩
      cases hb : s.busy with
      | true => exact .inr ⟨s, .resume hb, by rwa [step_resume hr hf hb] at h⟩
      | false =>
        cases hq : s.cmdQ with
        | nil => rw [step_idle hr hf hb hq] at h; cases h; exact .inl rfl
        | cons c rest => exact .inr ⟨_, .accept c rest hb hq, by rwa [step_accept hr hf hb hq] at h⟩

/-- Running a word is exec of its command, or the answer ILLEGAL once the host takes it (R174). -/
theorem runWord_cases (h : runWord s = .next t) :
    (∃ i, decode s.word = .command i ∧ exec i s = .next t) ∨ t = s ∨ t = s.endCommand ⟨.illegal, 0⟩ := by
  cases hd : decode s.word with
  | command i => exact .inl ⟨i, rfl, by rwa [runWord_command hd] at h⟩
  | illegal why =>
    rw [runWord_illegal hd] at h
    obtain ⟨-, rfl⟩ | ⟨-, rfl⟩ := respond_cases h
    · exact .inr (.inl rfl)
    · exact .inr (.inr rfl)

/-! ### Where a command leads -/

/-- How the command `i` ends: its effects are in `eff` and its response is the last argument. -/
inductive Ending (i : Instr) (s : State) : State → Response → Prop
  /-- `H` is written. -/
  | header (v : Header) (hi : writesH i = true) : Ending i s (s.setH v) ⟨.ok, 0⟩
  /-- Nothing but the answer. -/
  | answer (st : Status) (d : BitVec 16) (hi : isAssembling i = false)
      (h : st = .ok ∨ (d = 0 ∧ (st = .unsupported ∨ st = .noPdu))) : Ending i s s ⟨st, d⟩
  /-- The fatal violation. -/
  | halt (n : Nat) (hi : i = .hdrSetLen n) (hn : n < 6 ∨ 37 < n) :
      Ending i s s.setFatal ⟨.fatal, BitVec.ofNat 16 n⟩
  /-- The slot is filled: `bytes` in a zeroed buffer, under a packed header of their number (R132, R139). -/
  | assembled (taken rest bytes : List Byte) (code : Nibble) (tx rx : Bool) (pos : Nat) (hi : isAssembling i = true)
      (hmin : 6 ≤ bytes.length) (hmax : bytes.length ≤ 37) (hp : pos ≤ 37)
      (hc : code = 0b0001#4 ∧ bytes.length = 12 ∨ code ∈ [0b0000#4, 0b0010#4, 0b0110#4] ∧ rx = false) :
      Ending i s
        { s.takeAd taken rest with
          pay := filled s bytes, pos := pos, phdr := packHeader code tx rx bytes.length, pv := true } ⟨.ok, 0⟩
  /-- The slot is emptied. -/
  | full (taken rest : List Byte) (pos : Nat) (hi : i.nelem?.isSome = true) (hp : pos ≤ 37) :
      Ending i s ((s.takeAd taken rest).setPos pos).dropPdu ⟨.capacity, 0⟩
  /-- The bytes of a held PDU are emitted. -/
  | emit (f : List Byte → List Byte) (count : BitVec 16) (beats : List OutBeat) (hi : readerOf s i = some (f, count)) :
      Ending i s (s.sendOut beats) ⟨.ok, count⟩

/-- What `PDU.PAYLOAD` or `PDU.FRAME` has still to emit, given what it makes of the payload. -/
def beatsLeft (s : State) (f : List Byte → List Byte) : List OutBeat :=
  (outBeats (f (s.pay.readBytes 0 (slotLen s)))).drop s.outSent

/-- The host withholds a beat that `i` needs to end: its response, an `ad` byte, or room for an `out` beat (R197). -/
def Withheld (i : Instr) (s : State) : Prop :=
  s.rspTake = 0 ∨ (∃ n, i.nelem? = some n ∧ adReadSeq n (s.adTaken ++ s.adQ) = none)
  ∨ ∃ f count, readerOf s i = some (f, count) ∧ s.pv = true ∧ s.outTake < (beatsLeft s f).length

/-- Everywhere a command can lead. -/
inductive ExecOutcome (i : Instr) (s : State) : Host.Outcome State Fault Refusal → Prop
  | held (t : State) (hp : Progress i s t) (hw : Withheld i s) : ExecOutcome i s (.next t)
  | ended (eff : State) (r : Response) (he : Ending i s eff r) : ExecOutcome i s (.next (eff.endCommand r))
  | stopped (hp : s.pv = true) (hl : 37 < slotLen s) : ExecOutcome i s (.fault (.payIndex (slotLen s)))

theorem isAssembling_iff : isAssembling i = true ↔ i.nelem?.isSome = true ∨ i = .asmConnDir := by
  cases i <;> simp [isAssembling, Instr.nelem?]

/-- The outcome of a command is a hold or an ending, once it responds. -/
theorem respond_outcome {cur eff : State} {st : Status} {d : BitVec 16} (hrsp : cur.rspTake = s.rspTake)
    (hp : Progress i s cur) (he : Ending i s eff ⟨st, d⟩) : ExecOutcome i s (cur.respond eff st d) := by
  by_cases h0 : s.rspTake = 0
  · rw [respond_untaken eff st d (hrsp.trans h0)]
    exact .held _ hp (.inl h0)
  · rw [respond_taken eff st d (by omega)]
    exact .ended eff ⟨st, d⟩ he

theorem exec_outcome (i : Instr) (s : State) : ExecOutcome i s (exec i s) := by
  have hshape := exec_shape i s
  generalize exec i s = o at hshape
  have taken {n : Nat} {es : List (List Byte)} {rest : List Byte} (hi : i.nelem? = some n)
      (h : adReadSeq n (s.adTaken ++ s.adQ) = some (es, rest)) : Progress i s (s.takeAd (takenOf s rest) rest) := by
    obtain ⟨used, hused⟩ := adReadSeq_rest h
    exact .ad n _ rest hi (by simp [takenOf, hused])
  cases hshape with
  | header v hi => exact respond_outcome rfl .refl (.header v hi)
  | answer st d _ hn hd h =>
    refine respond_outcome rfl .refl (.answer st d ?_ h)
    simpa [hn, hd] using (isAssembling_iff (i := i)).not
  | halt n hi hn => exact respond_outcome rfl .refl (.halt n hi hn)
  | directed hi =>
    rw [directedHeader_eq_packHeader]
    exact respond_outcome rfl .refl (.assembled s.adTaken s.adQ (addrBytes s.opa ++ addrBytes s.opb) _ _ _ 0
      (isAssembling_iff.mpr (.inr hi)) (by simp) (by simp) (by omega) (.inl ⟨rfl, rfl⟩))
  | missing n hi h => exact .held _ (.ad n _ _ hi (List.append_nil _)) (.inr (.inl ⟨n, hi, h⟩))
  | fit n ty first es rest hi hc h ht =>
    have hlen : (addrBytes s.opa ++ (first ++ es).flatten).length = 6 + elemTotal (first ++ es) := by
      rw [List.length_append, addrBytes_length, elemTotal_eq_flatten_length]
    rw [advHeader_eq_packHeader _ _ _ (by omega), ← hlen]
    exact respond_outcome rfl (taken hi h) (.assembled _ rest _ _ _ _ _ (isAssembling_iff.mpr (.inl (by simp [hi])))
      (by omega) (by omega) (by omega) (.inr ⟨constructorOf_code hc, rfl⟩))
  | full n ty first es rest pos hi hc h ht hp =>
    exact respond_outcome rfl (taken hi h) (.full _ rest pos (by simp [hi]) hp)
  | emit f count hi hp hl =>
    by_cases hroom : (beatsLeft s f).length ≤ s.outTake
    · rw [emit_all _ hroom]
      have hprog := Progress.out f count _ hi hp hl hroom
      rw [← beatsLeft, List.take_length] at hprog
      exact respond_outcome rfl hprog (.emit f count _ hi)
    · rw [emit_held _ (Nat.lt_of_not_le hroom)]
      exact .held _ (.out f count _ hi hp hl (Nat.le_refl _)) (.inr (.inr ⟨f, count, hi, hp, Nat.lt_of_not_le hroom⟩))
  | stop _ hp hl => exact .stopped hp hl

/-- A command that goes on has made progress alone, or has ended. -/
theorem exec_next_cases (h : exec i s = .next t) :
    Progress i s t ∨ ∃ eff r, Ending i s eff r ∧ t = eff.endCommand r := by
  have ho := exec_outcome i s
  rw [h] at ho
  cases ho with
  | held _ hp _ => exact .inl hp
  | ended eff r he => exact .inr ⟨eff, r, he, rfl⟩

theorem Ending.rspLog {eff : State} {r : Response} (h : Ending i s eff r) : eff.rspLog = s.rspLog := by
  cases h <;> rfl

theorem Progress.busy (h : Progress i s t) : t.busy = s.busy := by cases h <;> rfl

theorem Progress.fatal (h : Progress i s t) : t.fatal = s.fatal := by cases h <;> rfl

theorem Progress.rspLog (h : Progress i s t) : t.rspLog = s.rspLog := by cases h <;> rfl

theorem writesH_cases (h : writesH i = true) :
    (∃ k, i = .hdrNew k) ∨ (∃ b0 b1, i = .hdrParse b0 b1) ∨ (∃ b, i = .hdrSetTx b) ∨ (∃ b, i = .hdrSetRx b)
    ∨ ∃ n, i = .hdrSetLen n ∧ 6 ≤ n ∧ n ≤ 37 := by
  cases i <;> simp_all [writesH, lenLegal]

/-! ### The invariant (R27) -/

theorem slotOk_congr (hphdr : t.phdr = s.phdr) (hpay : t.pay = s.pay) (h : SlotOk s) : SlotOk t := by
  obtain ⟨lenLow, lenHigh, rsvdLow, rsvdHigh, kind, directed, rxAdd, tail⟩ := h
  rw [← hphdr] at lenLow lenHigh rsvdLow rsvdHigh kind directed rxAdd tail
  rw [← hpay] at tail
  exact ⟨lenLow, lenHigh, rsvdLow, rsvdHigh, kind, directed, rxAdd, tail⟩

/-- A packed header of one of the four built kinds, over a buffer that is zero beyond its length, is a good slot. -/
theorem slotOk_of_packHeader {c : Nibble} {tx rx : Bool} {n : Nat} (hphdr : s.phdr = packHeader c tx rx n)
    (hmin : 6 ≤ n) (hmax : n ≤ 37) (hc : c = 0b0001#4 ∧ n = 12 ∨ c ∈ [0b0000#4, 0b0010#4, 0b0110#4] ∧ rx = false)
    (htail : ∀ a, n ≤ a → a < 37 → s.pay.read a = 0) : SlotOk s := by
  obtain ⟨hlen, hlow, hhigh, hcode, -, hrx⟩ := packHeader_fields c tx rx n hmax
  rw [← hphdr] at hlen hlow hhigh hcode hrx
  refine ⟨by omega, by omega, hlow, hhigh, ?_, ?_, ?_, by rwa [hlen]⟩
  · rw [hcode]
    obtain ⟨rfl, -⟩ | ⟨hc, -⟩ := hc
    · decide
    · simp only [List.mem_cons] at hc ⊢
      tauto
  · rw [hcode, hlen]
    rintro rfl
    obtain ⟨-, h12⟩ | ⟨hc, -⟩ := hc
    · exact h12
    · exact absurd hc (by decide)
  · rw [hcode, hrx]
    intro hne
    obtain ⟨rfl, -⟩ | ⟨-, rfl⟩ := hc
    · exact absurd rfl hne
    · rfl

/-- What leaves the slot and the cursor alone keeps the invariant, if nothing of an ended command is left. -/
theorem inv_of_same_slot (hs : Inv s) (hpay : t.pay = s.pay) (hpos : t.pos = s.pos) (hpv : t.pv = s.pv)
    (hphdr : t.phdr = s.phdr) (hidle : t.busy = false → t.adTaken = [] ∧ t.outSent = 0)
    (hhalted : t.fatal = true → t.busy = false) : Inv t :=
  ⟨hpay ▸ hs.payCanonical, hpos ▸ hs.posBound, fun hp => slotOk_congr hphdr hpay (hs.slot (hpv ▸ hp)), hidle, hhalted⟩

theorem Runs.inv {u : State} (h : Runs s u) (hfatal : s.fatal = false) (hs : Inv s) : Inv u := by
  cases h with
  | resume => exact hs
  | accept => exact inv_of_same_slot hs rfl rfl rfl rfl nofun (absurd · (by simp [hfatal]))

theorem Progress.inv (h : Progress i s t) (hbusy : s.busy = true) (hfatal : s.fatal = false) (hs : Inv s) : Inv t := by
  have hidle : t.busy = false → t.adTaken = [] ∧ t.outSent = 0 := by simp [h.busy, hbusy]
  have hhalted : t.fatal = true → t.busy = false := by simp [h.fatal, hfatal]
  cases h <;> exact inv_of_same_slot hs rfl rfl rfl rfl hidle hhalted

theorem Ending.inv {eff : State} {r : Response} (h : Ending i s eff r) (hs : Inv s) : Inv (eff.endCommand r) := by
  cases h with
  | header | answer | halt | emit => exact inv_of_same_slot hs rfl rfl rfl rfl (fun _ => ⟨rfl, rfl⟩) (fun _ => rfl)
  | assembled _ _ bytes _ _ _ _ _ hmin hmax hp hc =>
    refine ⟨filled_wf hmax hs.payCanonical, hp, fun _ => slotOk_of_packHeader rfl hmin hmax hc ?_,
      fun _ => ⟨rfl, rfl⟩, fun _ => rfl⟩
    intro a ha ha37
    exact (filled_read s bytes ha37).trans (List.getD_eq_default bytes _ ha)
  | full _ _ _ _ hp => exact ⟨memory_wf_free _, hp, nofun, fun _ => ⟨rfl, rfl⟩, fun _ => rfl⟩

theorem applyReset_inv (s : State) : Inv s.applyReset :=
  ⟨memory_wf_free _, Nat.le_of_lt_succ (Config.freePos s.fresh).isLt, nofun, fun _ => ⟨rfl, rfl⟩, fun _ => rfl⟩

/-- Settles O45: with `PV = 0`, idle and not halted, the cursor at 0 and no byte listed are all that is left (log 2). -/
theorem invariantHoldsAtReset : Obligations.InvariantHoldsAtReset :=
  ⟨rfl, Nat.zero_le _, nofun, fun _ => ⟨rfl, rfl⟩, fun _ => rfl⟩

/-- Settles O46: a reset pulse establishes the invariant, progress leaves the slot alone, and every ending keeps it. -/
theorem everyStepKeepsInvariant : Obligations.EveryStepKeepsInvariant := by
  intro s t hs h
  obtain ⟨-, rfl⟩ | ⟨-, hfatal, rfl | ⟨u, hu, hrun⟩⟩ := step_cases h
  · exact applyReset_inv s
  · exact hs
  · have hinv := hu.inv hfatal hs
    obtain ⟨i, -, hexec⟩ | rfl | rfl := runWord_cases hrun
    · obtain hprog | ⟨eff, r, hend, rfl⟩ := exec_next_cases hexec
      · exact hprog.inv hu.busy (hu.fatal.trans hfatal) hinv
      · exact hend.inv hinv
    · exact hinv
    · exact inv_of_same_slot hinv rfl rfl rfl rfl (fun _ => ⟨rfl, rfl⟩) (fun _ => rfl)

/-! ### Who writes what (R20, R21, R22) -/

/-- Settles O39: of progress and the endings only `Ending.header` writes `H`. -/
theorem onlyHeaderCommandsWriteH : Obligations.OnlyHeaderCommandsWriteH := by
  intro i s t h hne
  obtain hprog | ⟨eff, r, hend, rfl⟩ := exec_next_cases h
  · cases hprog <;> exact absurd rfl hne
  · cases hend with
    | header v hi => exact writesH_cases hi
    | answer | halt | assembled | full | emit => exact absurd rfl hne

/-- Settles O40: of progress and the endings only `Ending.assembled` and `Ending.full` write the slot. -/
theorem onlyAssemblersWriteSlot : Obligations.OnlyAssemblersWriteSlot := by
  intro i s t h
  refine ⟨fun hi => ?_, fun ht hs => ?_⟩
  · have hnelem : i.nelem?.isSome ≠ true := fun hn => by simp [isAssembling_iff.mpr (.inl hn)] at hi
    obtain hprog | ⟨eff, r, hend, rfl⟩ := exec_next_cases h
    · cases hprog with
      | refl | out => exact ⟨rfl, rfl, fun _ => rfl, rfl, rfl⟩
      | ad n _ _ hn => exact absurd (by simp [hn]) hnelem
    · cases hend with
      | header | answer | halt | emit => exact ⟨rfl, rfl, fun _ => rfl, rfl, rfl⟩
      | assembled _ _ _ _ _ _ _ ha => simp [ha] at hi
      | full _ _ _ hn => exact absurd hn hnelem
  · have hkept : t.pv ≠ s.pv := by simp [ht, hs]
    obtain hprog | ⟨eff, r, hend, rfl⟩ := exec_next_cases h
    · cases hprog <;> exact absurd rfl hkept
    · cases hend with
      | header | answer | halt | emit => exact absurd rfl hkept
      | assembled => cases ht
      | full _ _ _ hn => exact ⟨hn, rfl⟩

/-- A command sets FATAL only as HDR.SETLEN out of range (R22, R173). -/
theorem exec_sets_fatal (h : exec i s = .next t) (hs : s.fatal = false) (ht : t.fatal = true) :
    ∃ n, i = .hdrSetLen n ∧ (n < 6 ∨ 37 < n) := by
  have hkept : t.fatal ≠ s.fatal := by simp [ht, hs]
  obtain hprog | ⟨eff, r, hend, rfl⟩ := exec_next_cases h
  · exact absurd hprog.fatal hkept
  · cases hend with
    | halt n hi hn => exact ⟨n, hi, hn⟩
    | header | answer | assembled | full | emit => exact absurd rfl hkept

theorem lenLegal_eq_false {n : Nat} (hn : n < 6 ∨ 37 < n) : lenLegal n = false := by
  simp only [lenLegal, Config.minPayload, Config.maxPayload, Bool.and_eq_false_iff, decide_eq_false_iff_not]
  omega

/-- Settles O41: FATAL is kept by every other step, and a step from FATAL = 1 is a reset. -/
theorem onlySetLenHalts : Obligations.OnlySetLenHalts := by
  refine ⟨fun n s hn hrsp => ?_, fun s t h => ⟨fun hf => ?_, fun hf ht => ?_⟩⟩
  · have hexec : exec (.hdrSetLen n) s = s.raise s (.fatalViolation n) := by
      simp [exec, execHdrSetLen, lenLegal_eq_false hn]
    exact ⟨_, hexec.trans (raise_taken s (.fatalViolation n) hrsp), rfl⟩
  · obtain ⟨hr, rfl⟩ | ⟨-, hf', -⟩ := step_cases h
    · exact ⟨hr, rfl⟩
    · simp [hf] at hf'
  · have hkept : t.fatal ≠ s.fatal := by simp [hf, ht]
    obtain ⟨-, rfl⟩ | ⟨-, -, rfl | ⟨u, hu, hrun⟩⟩ := step_cases h
    · cases ht
    · exact absurd rfl hkept
    · obtain ⟨i, hd, hexec⟩ | rfl | rfl := runWord_cases hrun
      · obtain ⟨n, rfl, hn⟩ := exec_sets_fatal hexec (hu.fatal.trans hf) ht
        refine ⟨u.word, n, ?_, hd, hn⟩
        cases hu with
        | resume hb => exact .inl ⟨hb, rfl⟩
        | accept c rest hb hq => exact .inr ⟨hb, c, rest, hq, rfl⟩
      · exact absurd hu.fatal hkept
      · exact absurd hu.fatal hkept

/-- Settles O53: progress gives no response, and every ending is one. -/
theorem oneResponsePerCommand : Obligations.OneResponsePerCommand := by
  intro i s t hbusy h
  obtain hprog | ⟨eff, r, hend, rfl⟩ := exec_next_cases h
  · exact .inl ⟨hprog.busy.trans hbusy, hprog.rspLog⟩
  · refine .inr ⟨rfl, r, by rw [endCommand_rspLog, hend.rspLog], ?_⟩
    cases hend with
    | header | assembled | emit => exact ⟨fun hok => absurd rfl hok, nofun⟩
    | answer st d _ hr =>
      obtain rfl | ⟨rfl, rfl | rfl⟩ := hr
      · exact ⟨fun hok => absurd rfl hok, nofun⟩
      · exact ⟨fun _ _ => rfl, nofun⟩
      · exact ⟨fun _ _ => rfl, nofun⟩
    | halt n hi hn => exact ⟨fun _ hf => absurd rfl hf, fun _ => ⟨n, hi, hn, rfl⟩⟩
    | full => exact ⟨fun _ _ => rfl, nofun⟩

/-! ### Reset, resuming and running (R24, R33) -/

/-- Settles O43: the pulse is the step, and `applyReset` keeps the host's offers and logs. -/
theorem resetAbandonsAndClears : Obligations.ResetAbandonsAndClears := fun s hr =>
  ⟨s.applyReset, step_reset hr, rfl, rfl, rfl, rfl, rfl, rfl, (applyReset_inv s).posBound,
    rfl, rfl, rfl, rfl, rfl, rfl, rfl⟩

/-- The `cmd` beat at a ready state samples the ports and nothing else: no `ad` or `out` beat is left to forget. -/
theorem accept_of_ready (hs : Ready s) (c : CmdBeat) (rest : List CmdBeat) :
    s.accept c rest = { s with cmdQ := rest, busy := true, word := c.word, opa := c.opa, opb := c.opb } := by
  rw [State.accept, ← hs.noAdTaken, ← hs.noOutSent]

/-- Settles O47: a ready state takes the beat, and the word taken is run. -/
theorem stepRunsDecodedCommand : Obligations.StepRunsDecodedCommand := by
  intro s c rest i hs hq hd
  rw [step_accept hs.noReset hs.notFatal hs.notBusy hq, runWord_command (s := s.accept c rest) hd, accept_of_ready hs]

/-- Settles O48: the two remaining branches of the step, run in progress and idle. -/
theorem stepResumesOrIdles : Obligations.StepResumesOrIdles := by
  refine ⟨fun s i hr hf hb hd => ⟨?_, by simp [pinCmdReady, hb]⟩,
    fun s hs hq => step_idle hs.noReset hs.notFatal hs.notBusy hq⟩
  rw [step_resume hr hf hb, runWord_command hd]

/-! ### What a host cannot see (R33, R199)

Each operation leads from states a host cannot tell apart to outcomes it cannot tell apart, and so does each command. -/

theorem respond_alike {eff eff' : State} {st : Status} {d d' : BitVec 16} (h : SameVisible s t)
    (he : SameVisible eff eff') (hd : d = d') : SameOutcome (s.respond eff st d) (t.respond eff' st d') := by
  subst hd
  unfold State.respond
  rw [h.rspTake]
  split
  · exact h
  · exact { he with
      busy := rfl, sampled := nofun, adTaken := rfl, outSent := rfl, rspTake := congrArg (· - 1) he.rspTake,
      rspLog := by rw [endCommand_rspLog, endCommand_rspLog, he.rspLog] }

theorem setH_alike {v v' : Header} (h : SameVisible s t) (hv : v = v') : SameVisible (s.setH v) (t.setH v') :=
  { h with h := hv }

theorem sendOut_alike (h : SameVisible s t) (beats : List OutBeat) :
    SameVisible (s.sendOut beats) (t.sendOut beats) :=
  { h with
    outLog := congrArg (· ++ beats) h.outLog, outSent := congrArg (· + beats.length) h.outSent,
    outTake := congrArg (· - beats.length) h.outTake }

theorem takeAd_alike (h : SameVisible s t) (taken rest : List Byte) :
    SameVisible (s.takeAd taken rest) (t.takeAd taken rest) :=
  { h with adTaken := rfl, adQ := rfl }

/-- Nothing of the buffer before shows in a slot filled anew. -/
theorem fill_alike (h : SameVisible s t) (bytes : List Byte) (c : Nibble) (tx rx : Bool) (pos : Nat) {n : Nat}
    (hn : n ≤ 37) :
    SameVisible { s with pay := filled s bytes, pos := pos, phdr := packHeader c tx rx n, pv := true }
      { t with pay := filled t bytes, pos := pos, phdr := packHeader c tx rx n, pv := true } where
  __ := h
  pv := rfl
  phdr _ := rfl
  pay _ a ha := by
    have ha37 : a < 37 := by
      rw [(packHeader_fields c tx rx n hn).1] at ha
      omega
    exact (filled_read s bytes ha37).trans (filled_read t bytes ha37).symm

theorem applyReset_alike (h : SameVisible s t) : SameVisible s.applyReset t.applyReset :=
  { h with
    h := rfl, pv := rfl, phdr := nofun, pay := nofun, fatal := rfl, busy := rfl, sampled := nofun, adTaken := rfl,
    outSent := rfl, rst := rfl }

theorem accept_alike (h : SameVisible s t) (c : CmdBeat) (rest : List CmdBeat) :
    SameVisible (s.accept c rest) (t.accept c rest) :=
  { h with busy := rfl, sampled := fun _ => ⟨rfl, rfl, rfl⟩, adTaken := rfl, outSent := rfl, cmdQ := rfl }

theorem emit_alike {k : State → Host.Outcome State Fault Refusal} (h : SameVisible s t) (bs : List Byte)
    (hk : ∀ u v, SameVisible u v → SameOutcome (k u) (k v)) : SameOutcome (s.emit bs k) (t.emit bs k) := by
  unfold State.emit
  rw [h.outSent, h.outTake]
  split
  · exact hk _ _ (sendOut_alike h _)
  · exact sendOut_alike h _

theorem readElems_alike {k : List (List Byte) → State → Host.Outcome State Fault Refusal} {n : Nat}
    (h : SameVisible s t) (hb : s.busy = true)
    (hk : ∀ es u v, SameVisible u v → u.busy = true → SameOutcome (k es u) (k es v)) :
    SameOutcome (s.readElems n k) (t.readElems n k) := by
  unfold State.readElems
  rw [h.adTaken, h.adQ]
  split
  · exact takeAd_alike h _ _
  · exact hk _ _ _ (takeAd_alike h _ _) hb

theorem asmCommit_alike (ty : Kind) (a : AddrOperand) (es : List (List Byte)) (h : SameVisible s t) :
    SameOutcome (asmCommit s (advAssemble ty a es s)) (asmCommit t (advAssemble ty a es t)) := by
  by_cases hfit : elemTotal es ≤ 31
  · have hlen : 6 + elemTotal es ≤ 37 := by omega
    rw [advAssemble_fit _ _ _ _ hfit, advAssemble_fit _ _ _ _ hfit, advHeader_eq_packHeader _ _ _ hlen]
    simp only [asmCommit, State.holdPdu]
    exact respond_alike h (fill_alike h _ _ _ _ _ hlen) rfl
  · obtain ⟨w, -, hs⟩ := advAssemble_full ty a es s (by omega)
    obtain ⟨w', -, ht⟩ := advAssemble_full ty a es t (by omega)
    rw [hs, ht]
    exact respond_alike h { h with pv := rfl, phdr := nofun, pay := nofun } rfl

theorem assembleWith_alike (ty : Kind) (first : List (List Byte)) (n : Nat) (h : SameVisible s t)
    (hb : s.busy = true) : SameOutcome (assembleWith ty first n s) (assembleWith ty first n t) := by
  refine readElems_alike h hb fun es u v hu hbu => ?_
  obtain ⟨-, hopa, -⟩ := hu.sampled hbu
  rw [← hopa]
  exact asmCommit_alike ty u.opa (first ++ es) hu

/-- The two fixed copies fill a zeroed buffer (R139). -/
theorem directedPayload_eq (a b : AddrOperand) (s : State) :
    directedPayload a b s = { s with pay := filled s (addrBytes a ++ addrBytes b), pos := 0 } := by
  simp only [directedPayload, State.zeroFill, State.memWrite, State.setPos, filled, memory_writeBytes_append,
    Config.maxPayload, Config.addrLen, addrBytes_length, Nat.zero_add]

theorem execAsmConnDir_alike (h : SameVisible s t) (hb : s.busy = true) :
    SameOutcome (execAsmConnDir s) (execAsmConnDir t) := by
  obtain ⟨-, hopa, hopb⟩ := h.sampled hb
  rw [execAsmConnDir, execAsmConnDir, ← hopa, ← hopb, directedPayload_eq, directedPayload_eq,
    directedHeader_eq_packHeader]
  exact respond_alike h (fill_alike h _ _ _ _ _ (by decide)) rfl

/-- A held payload reads alike, within its length. -/
theorem memRead_alike (h : SameVisible s t) (hp : s.pv = true) :
    s.memRead 0 (slotLen s) = t.memRead 0 (slotLen s) := by
  unfold State.memRead
  split
  · rw [memory_readBytes_eq_map, memory_readBytes_eq_map]
    refine congrArg some (List.map_congr_left fun a ha => ?_)
    rw [Nat.zero_add]
    exact h.pay hp a (List.mem_range.mp ha)
  · rfl

theorem emitSlot_alike (f : Header → List Byte → List Byte) (count : Header → BitVec 16) (h : SameVisible s t) :
    SameOutcome (emitSlot (f s.phdr) (count s.phdr) s) (emitSlot (f t.phdr) (count t.phdr) t) := by
  cases hp : s.pv with
  | false =>
    rw [emitSlot, emitSlot, ← h.pv, hp]
    exact respond_alike h h rfl
  | true =>
    have hlen : slotLen t = slotLen s := by rw [slotLen, slotLen, h.phdr hp]
    rw [emitSlot, emitSlot, ← h.pv, hp, hlen, ← memRead_alike h hp, ← h.phdr hp]
    simp only [if_true]
    split
    · rfl
    · exact emit_alike h _ fun _ _ hu => respond_alike hu hu rfl

theorem exec_alike (i : Instr) (h : SameVisible s t) (hb : s.busy = true) : SameOutcome (exec i s) (exec i t) := by
  cases i with
  | hdrNew | hdrParse => exact respond_alike h (setH_alike h rfl) rfl
  | hdrSetTx | hdrSetRx => exact respond_alike h (setH_alike h (by rw [h.h])) rfl
  | hdrBits | hdrType | hdrTxRnd | hdrRxRnd | hdrLen => exact respond_alike h h (by rw [h.h])
  | hdrSetLen n =>
    change SameOutcome (execHdrSetLen n s) (execHdrSetLen n t)
    unfold execHdrSetLen
    split
    · exact respond_alike h (setH_alike h (by rw [h.h])) rfl
    · exact respond_alike h { h with fatal := rfl } rfl
  | ptyDec | ptyEnc | asmScanReq | asmScanRsp => exact respond_alike h h rfl
  | asmConnUndir | asmNonconnUndir | asmScannableUndir | asmBeacon | asmDiscoverable =>
    exact assembleWith_alike _ _ _ h hb
  | asmConnDir => exact execAsmConnDir_alike h hb
  | pduHeader =>
    change SameOutcome (execPduHeader s) (execPduHeader t)
    unfold execPduHeader
    rw [← h.pv]
    split
    · next hp => exact respond_alike h h (h.phdr hp)
    · exact respond_alike h h rfl
  | pduPayload => exact emitSlot_alike (fun _ p => p) (fun hd => (hdrLen hd).setWidth 16) h
  | pduFrame => exact emitSlot_alike frameBytes (fun hd => (hdrLen hd).setWidth 16 + 2) h

/-- Settles O55: a step is one of the operations above, chosen alike from states alike. -/
theorem unspecifiedStateNeverShows : Obligations.UnspecifiedStateNeverShows := by
  intro s t h
  have run {u v : State} (hu : SameVisible u v) (hb : u.busy = true) : SameOutcome (runWord u) (runWord v) := by
    obtain ⟨hword, -⟩ := hu.sampled hb
    cases hd : decode u.word with
    | command i => rw [runWord_command hd, runWord_command (hword ▸ hd)]; exact exec_alike i hu hb
    | illegal why => rw [runWord_illegal hd, runWord_illegal (hword ▸ hd)]; exact respond_alike hu hu rfl
  cases hr : s.rst with
  | true => rw [step_reset hr, step_reset (h.rst ▸ hr)]; exact applyReset_alike h
  | false =>
    have hr' : t.rst = false := h.rst ▸ hr
    cases hf : s.fatal with
    | true => rw [step_halted hr hf, step_halted hr' (h.fatal ▸ hf)]; rfl
    | false =>
      have hf' : t.fatal = false := h.fatal ▸ hf
      cases hb : s.busy with
      | true => rw [step_resume hr hf hb, step_resume hr' hf' (h.busy ▸ hb)]; exact run h hb
      | false =>
        have hb' : t.busy = false := h.busy ▸ hb
        cases hq : s.cmdQ with
        | nil => rw [step_idle hr hf hb hq, step_idle hr' hf' hb' (h.cmdQ ▸ hq)]; exact h
        | cons c rest =>
          rw [step_accept hr hf hb hq, step_accept hr' hf' hb' (h.cmdQ ▸ hq)]
          exact run (accept_alike h c rest) rfl

/-! ### The pins (R31) -/

theorem wantsAd_command (hd : decode s.word = .command i) :
    wantsAd s = true ↔ ∃ n, i.nelem? = some n ∧ adReadSeq n s.adTaken = none := by
  rw [wantsAd, hd]
  cases hn : i.nelem? with
  | none => simp [hn]
  | some n => simp [hn]

theorem wantsAd_illegal {why : Illegal} (hd : decode s.word = .illegal why) : wantsAd s = false := by
  rw [wantsAd, hd]

theorem outRemaining_illegal {why : Illegal} (hd : decode s.word = .illegal why) : outRemaining s = 0 := by
  rw [outRemaining, hd]

theorem outRemaining_of_no_reader (hd : decode s.word = .command i) (hr : readerOf s i = none) :
    outRemaining s = 0 := by
  rw [outRemaining, hd]
  split
  · next h => cases h; cases hr
  · next h => cases h; cases hr
  · rfl

theorem readBytes_length (m : Memory) (a n : Nat) : (m.readBytes a n).length = n := by
  rw [memory_readBytes_eq_map, List.length_map, List.length_range]

/-- The beats left of a reader of a held PDU, counted. -/
theorem outRemaining_of_reader {f : List Byte → List Byte} {count : BitVec 16} (hd : decode s.word = .command i)
    (hr : readerOf s i = some (f, count)) (hp : s.pv = true) : outRemaining s = (beatsLeft s f).length := by
  rw [outRemaining, hd, beatsLeft, List.length_drop, outBeats_length]
  cases i <;> cases hr
  · simp [hp, readBytes_length]
  · simp [hp, readBytes_length, frameBytes, headerBytes]

theorem outRemaining_of_empty (hp : s.pv = false) : outRemaining s = 0 := by
  unfold outRemaining
  split <;> simp [hp]

/-- Only a reader of a held PDU has `out` beats left. -/
theorem outRemaining_pos (h : 0 < outRemaining s) :
    s.pv = true ∧ ∃ i f count, decode s.word = .command i ∧ readerOf s i = some (f, count) := by
  cases hp : s.pv with
  | false => simp [outRemaining_of_empty hp] at h
  | true =>
    refine ⟨rfl, ?_⟩
    cases hd : decode s.word with
    | illegal => simp [outRemaining_illegal hd] at h
    | command i =>
      cases hr : readerOf s i with
      | none => simp [outRemaining_of_no_reader hd hr] at h
      | some p => exact ⟨i, p.1, p.2, rfl, hr⟩

theorem reader_cases {p : (List Byte → List Byte) × BitVec 16} (h : readerOf s i = some p) :
    i = .pduPayload ∨ i = .pduFrame := by
  unfold readerOf at h
  split at h
  · exact .inl rfl
  · exact .inr rfl
  · cases h

/-- A command that waits for `ad` bytes sends no `out` beat. -/
theorem outRemaining_of_wantsAd (h : wantsAd s = true) : outRemaining s = 0 := by
  by_contra hne
  obtain ⟨-, i, f, count, hd, hr⟩ := outRemaining_pos (Nat.pos_of_ne_zero hne)
  obtain ⟨n, hn, -⟩ := (wantsAd_command hd).mp h
  obtain rfl | rfl := reader_cases hr <;> cases hn

theorem pinAdReady_iff : pinAdReady s = true ↔ s.busy = true ∧ wantsAd s = true := by simp [pinAdReady]

theorem pinOutValid_iff : pinOutValid s = true ↔ s.busy = true ∧ 0 < outRemaining s := by simp [pinOutValid]

theorem pinRspValid_iff : pinRspValid s = true ↔ s.busy = true ∧ wantsAd s = false ∧ outRemaining s = 0 := by
  simp [pinRspValid, and_assoc]

/-- Settles O57: waiting for `ad` bytes and having `out` beats left exclude each other, and the response comes last. -/
theorem pinsFollowBeatOrder : Obligations.PinsFollowBeatOrder := by
  intro s
  refine ⟨fun hb => by simp [pinAdReady, pinOutValid, pinRspValid, hb], fun had => ?_, fun hout => ?_, fun hb => ?_⟩
  · obtain ⟨hb, hw⟩ := pinAdReady_iff.mp had
    refine ⟨by simp [pinOutValid, outRemaining_of_wantsAd hw], by simp [pinRspValid, hw], ?_⟩
    cases hd : decode s.word with
    | illegal => simp [wantsAd_illegal hd] at hw
    | command i =>
      obtain ⟨n, hn, hseq⟩ := (wantsAd_command hd).mp hw
      exact ⟨i, n, rfl, hn, hseq⟩
  · obtain ⟨-, hpos⟩ := pinOutValid_iff.mp hout
    obtain ⟨hp, i, f, count, hd, hr⟩ := outRemaining_pos hpos
    refine ⟨by simp [pinRspValid]; omega, hp, ?_⟩
    obtain rfl | rfl := reader_cases hr
    · exact .inl hd
    · exact .inr hd
  · refine ⟨by simp [pinCmdReady, hb], ?_⟩
    rw [pinAdReady_iff, pinOutValid_iff, pinRspValid_iff]
    cases hw : wantsAd s with
    | true => exact .inl ⟨hb, rfl⟩
    | false =>
      obtain h0 | hpos := Nat.eq_zero_or_pos (outRemaining s)
      · exact .inr (.inr ⟨hb, rfl, h0⟩)
      · exact .inr (.inl ⟨hb, hpos⟩)

/-! ### The response and the `out` beat at the pins (R29, R30) -/

/-- The state that `pinRsp` runs: a host ready for one response, and none given before. -/
def rspProbe (s : State) : State := { s with rspTake := 1, rspLog := [] }

/-- Two outcomes with one new response, the same, behind the responses given before. -/
def SameAnswer (log log' : List Response) (o o' : Host.Outcome State Fault Refusal) : Prop :=
  ∃ r u v, o = .next u ∧ o' = .next v ∧ u.rspLog = log ++ [r] ∧ v.rspLog = log' ++ [r]

theorem respond_sameAnswer {log : List Response} {eff eff' : State} {st : Status} {d : BitVec 16}
    (hs : 0 < s.rspTake) (he : eff.rspLog = log) (he' : eff'.rspLog = []) :
    SameAnswer log [] (s.respond eff st d) ((rspProbe s).respond eff' st d) :=
  ⟨⟨st, d⟩, _, _, respond_taken eff st d hs, respond_taken eff' st d Nat.one_pos, by rw [← he]; rfl,
    congrArg (· ++ _) he'⟩

/-- Whether the elements fit decides the response, and the host has no part in it (R140, R143). -/
theorem asmCommit_sameAnswer (ty : Kind) (a : AddrOperand) (es : List (List Byte)) (hs : 0 < s.rspTake) :
    SameAnswer s.rspLog [] (asmCommit s (advAssemble ty a es s))
      (asmCommit (rspProbe s) (advAssemble ty a es (rspProbe s))) := by
  by_cases hfit : elemTotal es ≤ 31
  · rw [advAssemble_fit _ _ _ _ hfit, advAssemble_fit _ _ _ _ hfit]
    exact respond_sameAnswer hs rfl rfl
  · obtain ⟨w, -, hes⟩ := advAssemble_full ty a es s (by omega)
    obtain ⟨w', -, hes'⟩ := advAssemble_full ty a es (rspProbe s) (by omega)
    rw [hes, hes']
    exact respond_sameAnswer hs rfl rfl

theorem assembleWith_sameAnswer {n : Nat} (ty : Kind) (first : List (List Byte)) (hs : 0 < s.rspTake)
    (hseq : adReadSeq n (s.adTaken ++ s.adQ) ≠ none) :
    SameAnswer s.rspLog [] (assembleWith ty first n s) (assembleWith ty first n (rspProbe s)) := by
  obtain ⟨⟨es, rest⟩, hgot⟩ := Option.ne_none_iff_exists'.mp hseq
  rw [assembleWith, assembleWith, readElems_complete (s := s) _ hgot, readElems_complete (s := rspProbe s) _ hgot]
  exact asmCommit_sameAnswer ty s.opa (first ++ es) (s := s.takeAd _ rest) hs

theorem exec_eq_emitSlot {f : List Byte → List Byte} {count : BitVec 16} (hr : readerOf s i = some (f, count)) :
    exec i s = emitSlot f count s := by
  cases i <;> cases hr <;> rfl

/-- A reader of a held PDU that goes on has a length within the buffer (R41, log 5). -/
theorem slotLen_le_of_reader {f : List Byte → List Byte} {count : BitVec 16} (hr : readerOf s i = some (f, count))
    (hp : s.pv = true) (h : exec i s = .next t) : slotLen s ≤ 37 := by
  by_contra hl
  have hread : s.memRead 0 (slotLen s) = none := if_neg (by simpa using hl)
  rw [exec_eq_emitSlot hr, emitSlot, if_pos hp, hread] at h
  cases h

theorem reader_sameAnswer {f : List Byte → List Byte} {count : BitVec 16} (hr : readerOf s i = some (f, count))
    (h : exec i s = .next t) (hs : 0 < s.rspTake) (hroom : s.pv = true → (beatsLeft s f).length ≤ s.outTake) :
    SameAnswer s.rspLog [] (exec i s) (exec i (rspProbe s)) := by
  have hr' : readerOf (rspProbe s) i = some (f, count) := (readerOf_congr rfl).trans hr
  cases hp : s.pv with
  | false =>
    rw [exec_eq_emitSlot hr, exec_eq_emitSlot hr', emitSlot, emitSlot, if_neg (by simp [hp]),
      if_neg (by simp [rspProbe, hp])]
    exact respond_sameAnswer hs rfl rfl
  | true =>
    have hl := slotLen_le_of_reader hr hp h
    have hroom' : (beatsLeft (rspProbe s) f).length ≤ (rspProbe s).outTake := hroom hp
    rw [exec_eq_emit hr hp hl, exec_eq_emit hr' hp hl, emit_all _ (hroom hp), emit_all _ hroom']
    exact respond_sameAnswer (s := s.sendOut _) hs rfl rfl

theorem exec_sameAnswer (h : exec i s = .next t) (hw : ¬ Withheld i s) :
    SameAnswer s.rspLog [] (exec i s) (exec i (rspProbe s)) := by
  simp only [Withheld, not_or, not_exists, not_and, not_lt] at hw
  obtain ⟨h0, hseq, hroom⟩ := hw
  have hs : 0 < s.rspTake := Nat.pos_of_ne_zero h0
  cases i with
  | hdrSetLen n =>
    change SameAnswer _ _ (execHdrSetLen n s) (execHdrSetLen n (rspProbe s))
    unfold execHdrSetLen
    split <;> exact respond_sameAnswer hs rfl rfl
  | pduHeader =>
    change SameAnswer _ _ (execPduHeader s) (if s.pv then _ else _)
    unfold execPduHeader
    split <;> exact respond_sameAnswer hs rfl rfl
  | asmConnUndir n | asmNonconnUndir n | asmScannableUndir n | asmBeacon n | asmDiscoverable n =>
    exact assembleWith_sameAnswer _ _ hs (hseq n rfl)
  | asmConnDir =>
    change SameAnswer _ _ (execAsmConnDir s) (execAsmConnDir (rspProbe s))
    rw [execAsmConnDir, execAsmConnDir, directedPayload_eq, directedPayload_eq]
    exact respond_sameAnswer hs rfl rfl
  | pduPayload | pduFrame => exact reader_sameAnswer rfl h hs (hroom _ _ rfl)
  | hdrNew | hdrParse | hdrBits | hdrType | hdrTxRnd | hdrSetTx | hdrRxRnd | hdrSetRx | hdrLen | ptyDec | ptyEnc
  | asmScanReq | asmScanRsp => exact respond_sameAnswer hs rfl rfl

/-- A command with its response alone left withholds nothing else. -/
theorem not_withheld_of_pinRspValid (hv : pinRspValid s = true) (hs : 0 < s.rspTake)
    (hd : decode s.word = .command i) : ¬ Withheld i s := by
  obtain ⟨-, hw, hout⟩ := pinRspValid_iff.mp hv
  rintro (h0 | ⟨n, hn, hseq⟩ | ⟨f, count, hr, hp, hroom⟩)
  · omega
  · cases hgot : adReadSeq n s.adTaken with
    | none => simp [(wantsAd_command hd).mpr ⟨n, hn, hgot⟩] at hw
    | some p => simp [adReadSeq_append s.adQ hgot] at hseq
  · rw [← outRemaining_of_reader hd hr hp] at hroom
    omega

theorem runWord_sameAnswer (hv : pinRspValid s = true) (hs : 0 < s.rspTake) (h : runWord s = .next t) :
    SameAnswer s.rspLog [] (runWord s) (runWord (rspProbe s)) := by
  cases hd : decode s.word with
  | illegal why =>
    rw [runWord_illegal hd, runWord_illegal (s := rspProbe s) hd]
    exact respond_sameAnswer hs rfl rfl
  | command i =>
    rw [runWord_command hd] at h
    rw [runWord_command hd, runWord_command (s := rspProbe s) hd]
    exact exec_sameAnswer h (not_withheld_of_pinRspValid hv hs hd)

/-- Emit and then respond: as many of the beats left as the host takes. -/
theorem emit_respond_outLog (s : State) (bs : List Byte) (count : BitVec 16) :
    ∃ t, s.emit bs (fun s1 => s1.respond s1 .ok count) = .next t
      ∧ t.outLog = s.outLog ++ ((outBeats bs).drop s.outSent).take s.outTake := by
  by_cases hroom : ((outBeats bs).drop s.outSent).length ≤ s.outTake
  · rw [emit_all _ hroom, List.take_of_length_le hroom]
    by_cases h0 : s.rspTake = 0
    · exact ⟨_, respond_untaken _ _ _ h0, rfl⟩
    · exact ⟨_, respond_taken _ _ _ (Nat.pos_of_ne_zero h0), rfl⟩
  · exact ⟨_, emit_held _ (Nat.lt_of_not_le hroom), rfl⟩

/-- The state that `pinOut` runs: a host ready for one `out` beat, and none sent before. -/
def outProbe (s : State) : State := { s with outTake := 1, rspTake := 0, outLog := [] }

/-- A reader with `out` beats left sends the first of them, if the host takes any. -/
theorem exec_sends_next_beat {f : List Byte → List Byte} {count : BitVec 16} (hr : readerOf s i = some (f, count))
    (hp : s.pv = true) (hl : slotLen s ≤ 37) {b : OutBeat} {bs : List OutBeat} (hleft : beatsLeft s f = b :: bs)
    (h0 : 0 < s.outTake) : ∃ t, exec i s = .next t ∧ t.outLog = s.outLog ++ b :: bs.take (s.outTake - 1) := by
  obtain ⟨t, ht, hlog⟩ := emit_respond_outLog s (f (s.pay.readBytes 0 (slotLen s))) count
  rw [← beatsLeft, hleft, List.take_cons h0] at hlog
  exact ⟨t, (exec_eq_emit hr hp hl).trans ht, hlog⟩

/-- Settles O58: each pin runs the command on a probe, which gives the same response, or the same first beat. -/
theorem channelPinsShowTheBeat : Obligations.ChannelPinsShowTheBeat := by
  refine ⟨rfl, rfl, rfl, rfl, rfl, rfl, fun s t hv hs h => ?_, fun s t hv ht h => ?_⟩
  · obtain ⟨r, u, v, hu, hprobe, hulog, hvlog⟩ := runWord_sameAnswer hv hs h
    cases hu.symm.trans h
    refine ⟨r.status, r.data, ?_, hulog⟩
    rw [pinRsp, if_pos hv, ← rspProbe, hprobe]
    simp only [hvlog]
    rfl
  · obtain ⟨-, hpos⟩ := pinOutValid_iff.mp hv
    obtain ⟨hp, i, f, count, hd, hr⟩ := outRemaining_pos hpos
    rw [runWord_command hd] at h
    have hl := slotLen_le_of_reader hr hp h
    rw [outRemaining_of_reader hd hr hp] at hpos
    obtain ⟨b, bs, hleft⟩ := List.exists_cons_of_length_pos hpos
    obtain ⟨u, hu, hulog⟩ := exec_sends_next_beat hr hp hl hleft ht
    obtain ⟨v, hprobe, hvlog⟩ :=
      exec_sends_next_beat (s := outProbe s) ((readerOf_congr rfl).trans hr) hp hl hleft Nat.one_pos
    cases hu.symm.trans h
    refine ⟨b, _, ?_, hulog⟩
    rw [pinOut, if_pos hv, ← outProbe, runWord_command (s := outProbe s) hd, hprobe]
    simp only [hvlog]
    rfl

/-! ### The first command after reset (R191, R193) -/

/-- A command from which nothing is withheld ends, unless it stops past the buffer. -/
theorem exec_ends (hw : ¬ Withheld i s) (hl : s.pv = true → slotLen s ≤ 37) :
    ∃ eff r, Ending i s eff r ∧ exec i s = .next (eff.endCommand r) := by
  have ho := exec_outcome i s
  generalize exec i s = o at ho
  cases ho with
  | held _ _ hheld => exact absurd hheld hw
  | ended eff r he => exact ⟨eff, r, he, rfl⟩
  | stopped hp hlong => exact absurd (hl hp) (Nat.not_le_of_lt hlong)

theorem Ending.response_eq {eff : State} {r : Response} {st : Status} {d : BitVec 16} (he : Ending i s eff r)
    (hend : exec i s = .next (eff.endCommand r)) (hs : 0 < s.rspTake) (h : exec i s = s.respond s st d) :
    r = ⟨st, d⟩ := by
  rw [hend, respond_taken _ _ _ hs] at h
  injection h with h
  have hlog := congrArg State.rspLog h
  rw [endCommand_rspLog, he.rspLog] at hlog
  exact List.singleton_inj.mp (List.append_cancel_left hlog)

theorem exec_pdu_of_empty (hi : isPdu i = true) (hp : s.pv = false) : exec i s = s.respond s .noPdu 0 := by
  have hp' : ¬ s.pv = true := by simp [hp]
  cases i with
  | pduHeader | pduPayload | pduFrame => exact if_neg hp'
  | _ => cases hi

theorem exec_getter_of_zero (hi : isHdrGetter i = true) (hh : s.h = 0) : exec i s = s.respond s .ok 0 := by
  cases i with
  | hdrBits | hdrType | hdrTxRnd | hdrRxRnd | hdrLen => exact congrArg (s.respond s .ok) (by rw [hh]; rfl)
  | _ => cases hi

theorem Ending.status_of_assembling {eff : State} {r : Response} (h : Ending i s eff r)
    (hi : isAssembling i = true) : r.status = .ok ∨ r.status = .capacity := by
  cases h with
  | header | assembled | emit => exact .inl rfl
  | answer _ _ hna => simp [hi] at hna
  | halt n hn => subst hn; cases hi
  | full => exact .inr rfl

/-- Settles O44: at reset nothing the first command needs is withheld and the slot is empty, so it ends. -/
theorem resetStateIsUsable : Obligations.ResetStateIsUsable := by
  refine ⟨rfl, rfl, rfl, rfl, rfl, rfl, rfl, rfl, ⟨_, _, rfl, rfl, rfl, rfl⟩, fun c q hseq => ?_⟩
  rw [step_accept rfl rfl rfl rfl]
  generalize hu : State.accept { State.reset with cmdQ := [c], adQ := q, rspTake := 1 } c [] = u
  have hword : u.word = c.word := hu ▸ rfl
  have hs : 0 < u.rspTake := hu ▸ Nat.one_pos
  have hlog : u.rspLog = [] := hu ▸ rfl
  have hh : u.h = 0 := hu ▸ rfl
  have hp : u.pv = false := hu ▸ rfl
  have hstream : u.adTaken ++ u.adQ = q := hu ▸ rfl
  rw [← hword] at hseq ⊢
  cases hd : decode u.word with
  | illegal why =>
    rw [runWord_illegal hd, respond_taken _ _ _ hs]
    exact ⟨_, ⟨.illegal, 0⟩, rfl, rfl, congrArg (· ++ _) hlog, nofun⟩
  | command i =>
    have hw : ¬ Withheld i u := by
      rintro (h0 | ⟨n, hn, hnone⟩ | ⟨_, _, _, hpv, _⟩)
      · omega
      · rw [hstream] at hnone
        simpa [hnone] using hseq i n hd hn
      · simp [hp] at hpv
    obtain ⟨eff, r, he, hend⟩ := exec_ends hw (by simp [hp])
    refine ⟨_, r, (runWord_command hd).trans hend, rfl, by rw [endCommand_rspLog, he.rspLog, hlog]; rfl, ?_⟩
    rintro _ ⟨⟩
    exact ⟨fun hi => he.response_eq hend hs (exec_pdu_of_empty hi hp),
      fun hi => he.response_eq hend hs (exec_getter_of_zero hi hh), fun hi => he.status_of_assembling hi⟩

end Sys2Proof.Proofs

/-! Family 20_memory: the buffer (spec/20_memory.md R41 to R48), the element stream (R50, R51), and what the two make
together: a frame is read from the slot exactly as an assembling command filled it (`pduFrame_of_filled`). -/

namespace Sys2Proof.Proofs

open Sys2Proof.Machine Sys2Proof.Laws Sys2Proof.Safety

variable {i : Instr} {s : State}

/-! ### Runs of bytes (R44, R45) -/

theorem read_writeBytes_inside (m : Memory) (a : Nat) {bs : List Byte} {j : Nat} (hj : j < bs.length) :
    (m.writeBytes a bs).read (a + j) = bs.getD j 0 := by
  rw [memory_read_writeBytes, if_pos (by omega), Nat.add_sub_cancel_left]

theorem read_writeBytes_outside (m : Memory) {a : Nat} {bs : List Byte} {x : Nat} (hx : x < a ∨ a + bs.length ≤ x) :
    (m.writeBytes a bs).read x = m.read x := by
  rw [memory_read_writeBytes, if_neg (by omega)]

/-- Indices that read as the bytes of a list, read in order, are the list. -/
theorem readBytes_eq_of_read {m : Memory} {a : Nat} {bs : List Byte}
    (h : ∀ j, j < bs.length → m.read (a + j) = bs.getD j 0) : m.readBytes a bs.length = bs := by
  rw [memory_readBytes_eq_map]
  refine List.ext_getElem (by simp) fun j _ hj => ?_
  rw [List.getElem_map, List.getElem_range, h j hj, List.getD_eq_getElem _ _ hj]

theorem readBytes_writeBytes (m : Memory) (a : Nat) (bs : List Byte) :
    (m.writeBytes a bs).readBytes a bs.length = bs :=
  readBytes_eq_of_read fun _ hj => read_writeBytes_inside m a hj

theorem memRead_within {a n : Nat} (h : a + n ≤ 37) : s.memRead a n = some (s.pay.readBytes a n) := if_pos h

theorem memRead_past {a n : Nat} (h : 37 < a + n) : s.memRead a n = none := if_neg (Nat.not_le_of_lt h)

/-- Settles O23: each index inside the run reads the byte written there, each outside reads as before. -/
theorem memReadGivesWhatWasWritten : Obligations.MemReadGivesWhatWasWritten := by
  intro s a bs hfit
  refine ⟨?_, fun x hx => read_writeBytes_outside s.pay hx, fun b n hb => ?_, fun b n hb => memRead_past hb⟩
  · rw [memRead_within hfit, memWrite_pay, readBytes_writeBytes]
  · rw [memRead_within hb, memory_readBytes_eq_map]

/-- Settles O24: the slice that fits is one run of bytes written at the cursor. -/
theorem writerIsAllOrNothing : Obligations.WriterIsAllOrNothing := by
  intro s bs hpos
  refine ⟨rfl, fun hfull => writeSlice_full hpos (by omega), fun hfit => ?_⟩
  exact ⟨_, writeSlice_fits (by omega), rfl, fun j hj => read_writeBytes_inside s.pay s.pos hj,
    fun x hx => read_writeBytes_outside s.pay hx⟩

/-! ### The element stream (R50, R51) -/

theorem frameElems_length (es : List (List Byte)) : (frameElems es).length = es.length + elemTotal es := by
  induction es with
  | nil => rfl
  | cons e es ih =>
    simp only [frameElems, List.length_cons, List.length_append, ih, elemTotal_cons]
    omega

/-- A length byte holds any length up to 255, so exactly the element behind it is taken. -/
theorem adReadElem_framed {e : List Byte} (he : e.length ≤ 255) (rest : List Byte) :
    adReadElem (BitVec.ofNat 8 e.length :: (e ++ rest)) = some (e, rest) := by
  have hlen : (BitVec.ofNat 8 e.length).toNat = e.length := by
    rw [BitVec.toNat_ofNat]
    omega
  simp [adReadElem, adTakeN, hlen]

theorem adReadSeq_frameElems {es : List (List Byte)} (h : ∀ e ∈ es, e.length ≤ 255) (rest : List Byte) :
    adReadSeq es.length (frameElems es ++ rest) = some (es, rest) := by
  induction es with
  | nil => rfl
  | cons e es ih =>
    obtain ⟨he, hes⟩ := List.forall_mem_cons.mp h
    rw [frameElems, List.cons_append, List.append_assoc, List.length_cons, adReadSeq, adReadElem_framed he]
    simp only [ih hes]

/-- A part of a framing that gave a sequence would give the same one with bytes to spare, and the whole has none. -/
theorem adReadSeq_take_frameElems {es : List (List Byte)} (h : ∀ e ∈ es, e.length ≤ 255) {k : Nat}
    (hk : k < (frameElems es).length) : adReadSeq es.length ((frameElems es).take k) = none := by
  cases hpart : adReadSeq es.length ((frameElems es).take k) with
  | none => rfl
  | some p =>
    have hwhole := adReadSeq_append ((frameElems es).drop k) hpart
    rw [List.take_append_drop, ← List.append_nil (frameElems es), adReadSeq_frameElems h] at hwhole
    simp only [Option.some.injEq, Prod.mk.injEq, List.append_nil] at hwhole
    obtain ⟨-, hspare⟩ := hwhole
    obtain ⟨-, hdrop⟩ := List.append_eq_nil_iff.mp hspare.symm
    exact absurd (List.drop_eq_nil_iff.mp hdrop) (Nat.not_le_of_lt hk)

/-- Settles O25: by induction on the elements, and a complete part would leave more than the whole does. -/
theorem elementSequenceReadWhole : Obligations.ElementSequenceReadWhole := fun es h =>
  ⟨frameElems_length es, adReadSeq_frameElems h, fun _ hk => adReadSeq_take_frameElems h hk⟩

/-- Settles O50: an element-taking command begins with AdReadSeq, which holds. -/
theorem missingElementBytesHold : Obligations.MissingElementBytesHold := by
  intro i n s hi hseq
  obtain ⟨ty, first, hexec⟩ := exec_eq_assembleWith hi
  rw [hexec]
  exact readElems_held _ hseq

/-! ### Reading the slot (R161 to R163) -/

/-- A stored length above 37 names an index that does not exist (R41, log 5). -/
theorem exec_reader_past {f : List Byte → List Byte} {count : BitVec 16} (hr : readerOf s i = some (f, count))
    (hp : s.pv = true) (hl : 37 < slotLen s) : exec i s = .fault (.payIndex (slotLen s)) := by
  have hread : s.memRead 0 (slotLen s) = none := memRead_past (by omega)
  rw [exec_eq_emitSlot hr, emitSlot, if_pos hp, hread]

/-- Settles O37: both commands are readers of the slot, and MemRead past the buffer is not given. -/
theorem readersStopPastTheBuffer : Obligations.ReadersStopPastTheBuffer := fun _ hp hl =>
  ⟨exec_reader_past rfl hp hl, exec_reader_past rfl hp hl⟩

/-- A reader of a held PDU that has sent nothing yet sends all its bytes and ends, if the host takes them. -/
theorem exec_reader_ends {f : List Byte → List Byte} {count : BitVec 16} {bs : List Byte}
    (hr : readerOf s i = some (f, count)) (hp : s.pv = true) (hl : slotLen s ≤ 37)
    (hbs : f (s.pay.readBytes 0 (slotLen s)) = bs) (h0 : s.outSent = 0) (hroom : bs.length ≤ s.outTake)
    (hrsp : 0 < s.rspTake) : exec i s = .next (answered (s.sendOut (lastMarked bs)) .ok count) := by
  have hleft : (outBeats bs).drop s.outSent = lastMarked bs := by rw [h0, List.drop_zero, outBeats_eq_lastMarked]
  have hlen : (lastMarked bs).length ≤ s.outTake := by rwa [← outBeats_eq_lastMarked, outBeats_length]
  rw [exec_eq_emit hr hp hl, hbs, emit_all _ (by rwa [hleft]), hleft]
  exact respond_taken (s := s.sendOut _) _ _ _ hrsp

/-- The low byte of a packed header: code and address flags. -/
theorem packHeader_lowByte (c : Nibble) (tx rx : Bool) (n : Nat) :
    (packHeader c tx rx n).extractLsb' 0 8
      = c.setWidth 8 ||| (if tx then 0x40 else 0) ||| (if rx then 0x80 else 0) := by
  have hlen (x y : Header) : (x ||| y <<< 8).extractLsb' 0 8 = x.extractLsb' 0 8 := by
    ext j hj
    simp [hj]
  rw [packHeader, hlen]
  revert c tx rx
  decide

/-- The high byte of a packed header: the length. -/
theorem packHeader_highByte (c : Nibble) (tx rx : Bool) (n : Nat) :
    (packHeader c tx rx n).extractLsb' 8 8 = BitVec.ofNat 8 n := by
  apply BitVec.eq_of_getLsbD_eq
  intro j hj
  have h6 : 8 + j - 6 = j + 2 := by omega
  have h7 : 8 + j - 7 = j + 1 := by omega
  have h8 : 8 + j < 16 := by omega
  have h16 : j < 16 := by omega
  have hn : (BitVec.ofNat 16 n)[j] = (BitVec.ofNat 8 n)[j] := by
    rw [← BitVec.getLsbD_eq_getElem, ← BitVec.getLsbD_eq_getElem, BitVec.getLsbD_ofNat, BitVec.getLsbD_ofNat,
      decide_eq_true h16, decide_eq_true hj]
  have hc : c.getLsbD (8 + j) = false := BitVec.getLsbD_of_ge _ _ (by omega)
  simp [packHeader, hj, h6, h7, h8, hc, hn]

/-- The two bytes of a packed header, low byte first (R163). -/
theorem headerBytes_packHeader (c : Nibble) (tx rx : Bool) (n : Nat) :
    headerBytes (packHeader c tx rx n)
      = [c.setWidth 8 ||| (if tx then 0x40 else 0) ||| (if rx then 0x80 else 0), BitVec.ofNat 8 n] := by
  rw [headerBytes, packHeader_lowByte, packHeader_highByte]

/-- A slot that holds `bytes` under a packed header of their number is emitted as that header and those bytes. -/
theorem exec_pduFrame_of_held {bytes : List Byte} {c : Nibble} {tx rx : Bool} (hp : s.pv = true)
    (hphdr : s.phdr = packHeader c tx rx bytes.length) (hpay : ∀ a, a < 37 → s.pay.read a = bytes.getD a 0)
    (hmax : bytes.length ≤ 37) (h0 : s.outSent = 0) (hout : 39 ≤ s.outTake) (hrsp : 0 < s.rspTake) :
    exec .pduFrame s = .next (answered
      (s.sendOut (lastMarked (headerBytes (packHeader c tx rx bytes.length) ++ bytes)))
      .ok (BitVec.ofNat 16 (bytes.length + 2))) := by
  have hlen : slotLen s = bytes.length := by
    rw [slotLen, hphdr]
    exact (packHeader_fields c tx rx bytes.length hmax).1
  have hcount : (hdrLen s.phdr).setWidth 16 + 2 = BitVec.ofNat 16 (bytes.length + 2) := by
    apply BitVec.eq_of_toNat_eq
    rw [← hlen, slotLen]
    simp
  have hread : s.pay.readBytes 0 (slotLen s) = bytes := by
    rw [hlen]
    exact readBytes_eq_of_read fun j hj => by rw [Nat.zero_add, hpay j (by omega)]
  rw [← hcount]
  refine exec_reader_ends rfl hp (by omega) (by rw [hread, hphdr]; rfl) h0 ?_ hrsp
  simp only [headerBytes, List.length_append, List.length_cons, List.length_nil]
  omega

/-! ### The frame of what was assembled (R143, R162) -/

/-- An element-taking command builds the kind, and puts first the elements, that `constructorOf` says. -/
theorem exec_eq_of_constructorOf {n : Nat} {ty : Kind} {first : List (List Byte)} (hi : i.nelem? = some n)
    (hc : constructorOf i = some (ty, first)) : exec i s = assembleWith ty first n s := by
  cases i <;> cases hi <;> cases hc <;> rfl

/-- The state of a slot filled with `bytes` from the state `s`, under a packed header of their number. -/
def fillSlot (s : State) (bytes : List Byte) (c : Nibble) (tx rx : Bool) (pos : Nat) : State :=
  { s with pay := filled s bytes, pos := pos, phdr := packHeader c tx rx bytes.length, pv := true }

/-- Elements that fit fill the slot with the address, the mandatory elements and the caller's (R132, R140). -/
theorem exec_constructor_fit {ty : Kind} {first es : List (List Byte)} {rest : List Byte} {n : Nat}
    (hi : i.nelem? = some n) (hc : constructorOf i = some (ty, first))
    (hseq : adReadSeq n (s.adTaken ++ s.adQ) = some (es, rest)) (hfit : elemTotal (first ++ es) ≤ 31)
    (hrsp : 0 < s.rspTake) :
    exec i s = .next (answered (fillSlot (s.takeAd (takenOf s rest) rest) (addrBytes s.opa ++ (first ++ es).flatten)
      (enc ty.rep) (s.opa.getLsbD 48) false (6 + elemTotal (first ++ es))) .ok 0) := by
  have hlen : (addrBytes s.opa ++ (first ++ es).flatten).length = 6 + elemTotal (first ++ es) := by
    rw [List.length_append, addrBytes_length, elemTotal_eq_flatten_length]
  rw [exec_eq_of_constructorOf hi hc, assembleWith, readElems_complete _ hseq, ← takenOf, takeAd_opa,
    advAssemble_fit _ _ _ _ hfit, advHeader_eq_packHeader _ _ _ (by omega), fillSlot, hlen]
  simp only [asmCommit, State.holdPdu]
  exact respond_taken (s := s.takeAd (takenOf s rest) rest) _ _ _ hrsp

/-- ASM.CONN_DIR fills the slot with the two addresses (R139). -/
theorem exec_asmConnDir (hrsp : 0 < s.rspTake) :
    exec .asmConnDir s = .next (answered (fillSlot s (addrBytes s.opa ++ addrBytes s.opb) 0b0001
      (s.opa.getLsbD 48) (s.opb.getLsbD 48) 0) .ok 0) := by
  change execAsmConnDir s = _
  rw [execAsmConnDir, directedPayload_eq, directedHeader_eq_packHeader]
  exact respond_taken _ _ _ hrsp

/-- PDU.FRAME right after a command that filled the slot emits the header's two bytes and the bytes it was filled with. -/
theorem pduFrame_of_filled {bytes : List Byte} (c : Nibble) (tx rx : Bool) (pos : Nat)
    (hmax : bytes.length ≤ 37) (hrsp : 2 ≤ s.rspTake) (hout : 39 ≤ s.outTake) :
    ∃ u, exec .pduFrame (answered (fillSlot s bytes c tx rx pos) .ok 0) = .next u ∧ u.adQ = s.adQ
      ∧ u.outLog = s.outLog ++ lastMarked
          ([c.setWidth 8 ||| (if tx then 0x40 else 0) ||| (if rx then 0x80 else 0), BitVec.ofNat 8 bytes.length] ++ bytes)
      ∧ u.rspLog = s.rspLog ++ [{ status := .ok, data := 0 },
          { status := .ok, data := BitVec.ofNat 16 (bytes.length + 2) }] := by
  rw [← headerBytes_packHeader]
  exact ⟨_, exec_pduFrame_of_held rfl rfl (fun a ha => filled_read s bytes ha) hmax rfl hout (Nat.le_sub_of_add_le hrsp),
    rfl, rfl, List.append_assoc _ _ _⟩

/-- The frame of an element-taking command's PDU: `code` is its kind's and `flags` are its mandatory bytes. -/
theorem pduFrame_of_constructor {ty : Kind} {first es : List (List Byte)} {flags rest : List Byte} {code : Byte}
    (hi : i.nelem? = some es.length) (hc : constructorOf i = some (ty, first)) (hcode : (enc ty.rep).setWidth 8 = code)
    (hflags : first.flatten = flags) (hes : ∀ e ∈ es, e.length ≤ 255) (hfit : flags.length + elemTotal es ≤ 31)
    (hstream : s.adTaken ++ s.adQ = frameElems es ++ rest) (hrsp : 2 ≤ s.rspTake) (hout : 39 ≤ s.outTake) :
    ∃ t u, exec i s = .next t ∧ exec .pduFrame t = .next u ∧ u.adQ = rest
      ∧ u.outLog = s.outLog ++ lastMarked
          ([code ||| (if s.opa.getLsbD 48 then 0x40 else 0), BitVec.ofNat 8 (6 + flags.length + elemTotal es)]
            ++ addrBytes s.opa ++ flags ++ es.flatten)
      ∧ u.rspLog = s.rspLog ++ [{ status := .ok, data := 0 },
          { status := .ok, data := BitVec.ofNat 16 (8 + flags.length + elemTotal es) }] := by
  subst hcode hflags
  have htotal : elemTotal (first ++ es) = first.flatten.length + elemTotal es := by
    simp only [elemTotal_eq_flatten_length, List.flatten_append, List.length_append]
  have hlen : (addrBytes s.opa ++ (first ++ es).flatten).length = 6 + first.flatten.length + elemTotal es := by
    rw [List.length_append, addrBytes_length, ← elemTotal_eq_flatten_length, htotal, Nat.add_assoc]
  have hseq : adReadSeq es.length (s.adTaken ++ s.adQ) = some (es, rest) := hstream ▸ adReadSeq_frameElems hes rest
  obtain ⟨u, hu, hadQ, houtLog, hrspLog⟩ := pduFrame_of_filled (s := s.takeAd (takenOf s rest) rest) (enc ty.rep)
    (s.opa.getLsbD 48) false (6 + elemTotal (first ++ es)) (hlen.trans_le (by omega)) hrsp hout
  refine ⟨_, u, exec_constructor_fit hi hc hseq (by omega) (by omega), hu, hadQ, ?_, ?_⟩
  · rw [houtLog, hlen]
    simp
  · rw [hrspLog, takeAd_rspLog, hlen,
      show 6 + first.flatten.length + elemTotal es + 2 = 8 + first.flatten.length + elemTotal es by omega]

/-- Settles O32: each of the six commands fills the slot, and PDU.FRAME emits what it was filled with. -/
theorem frameOfAssembledPdu : Obligations.FrameOfAssembledPdu := by
  refine ⟨fun mk code first hmem s es rest hes hfit hstream hrsp hout => ?_, fun s hrsp hout => ?_⟩
  · simp only [List.mem_cons, Prod.mk.injEq, List.not_mem_nil, or_false] at hmem
    obtain ⟨rfl, rfl, rfl⟩ | ⟨rfl, rfl, rfl⟩ | ⟨rfl, rfl, rfl⟩ | ⟨rfl, rfl, rfl⟩ | ⟨rfl, rfl, rfl⟩ := hmem <;>
      exact pduFrame_of_constructor rfl rfl rfl rfl hes hfit hstream hrsp hout
  · obtain ⟨u, hu, hadQ, houtLog, hrspLog⟩ := pduFrame_of_filled (bytes := addrBytes s.opa ++ addrBytes s.opb) 0b0001
      (s.opa.getLsbD 48) (s.opb.getLsbD 48) 0 (by simp) hrsp hout
    exact ⟨_, u, exec_asmConnDir (by omega), hu, hadQ, houtLog, hrspLog⟩

end Sys2Proof.Proofs

/-! Family 30_encoding: the decoder, the encoder and the opcode map of spec/30_encoding.md are three readings of one
table, the 23 lines of the decoder. A word decodes to a command exactly when it is on that command's line: zero top byte,
the line's opcode, its must-be-zero bits zero (`OnLine`, `decode_eq_command_iff`). The encoder makes the line's word of the
line's command (`encodes_of_mem`), and a row of R70 covers the words on its line (`covers_rowOf_iff`). Then what a command
word leads to: an answer (R174, R204), whatever the ports it does not use hold (R75). -/

namespace Sys2Proof.Proofs

open Sys2Proof.Machine Sys2Proof.Laws Sys2Proof.Safety

variable {w : Word} {op : Byte} {imm mbz : Imm} {i : Instr} {l l' : DecodeLine}

/-! ### The lines of the decoder (R70, R86) -/

/-- The 23 lines of the decoder for an immediate. -/
abbrev decodeLines (imm : Imm) : List DecodeLine := codecLines imm ++ pduLines imm

theorem decodeLines_op_nodup (imm : Imm) : ((decodeLines imm).map DecodeLine.op).Nodup := by
  change [0x10#8, 0x11#8, 0x12#8, 0x13#8, 0x14#8, 0x15#8, 0x16#8, 0x17#8, 0x18#8, 0x19#8, 0x20#8, 0x21#8,
    0x40#8, 0x41#8, 0x42#8, 0x43#8, 0x44#8, 0x46#8, 0x48#8, 0x49#8, 0x50#8, 0x51#8, 0x52#8].Nodup
  decide

/-- No two lines have one opcode (R73). -/
theorem eq_of_op_eq (hl : l ∈ decodeLines imm) (hl' : l' ∈ decodeLines imm) (h : l.op = l'.op) : l = l' :=
  List.inj_on_of_nodup_map (decodeLines_op_nodup imm) hl hl' h

theorem decodeOp_of_mem (hl : l ∈ decodeLines imm) : decodeOp l.op imm = unlessSet imm l.mbz l.cmd := by
  unfold decodeOp
  split
  · next found hfound =>
    have hop : found.op = l.op := by simpa using List.find?_some hfound
    rw [eq_of_op_eq (List.mem_of_find?_eq_some hfound) hl hop]
  · next hnone => exact absurd (List.find?_eq_none.mp hnone l hl) (by simp)

theorem decodeOp_unlisted (h : ∀ l ∈ decodeLines imm, l.op ≠ op) : decodeOp op imm = .illegal .unknownOpcode := by
  have hnone : (decodeLines imm).find? (fun l => l.op == op) = none :=
    List.find?_eq_none.mpr fun l hl => by simpa using h l hl
  rw [decodeOp, hnone]

theorem unlessSet_clear (h : imm &&& mbz = 0) : unlessSet imm mbz i = .command i := if_pos h

theorem unlessSet_set (h : imm &&& mbz ≠ 0) : unlessSet imm mbz i = .illegal .mustBeZero := if_neg h

theorem decode_of_zero (h : wordZero w = 0) : decode w = decodeOp (wordOp w) (wordImm w) := if_pos h

theorem decode_of_nonzero (h : wordZero w ≠ 0) : decode w = .illegal .zeroField := if_neg h

/-- The word `w` is one of the words of the line `l`: zero top byte, the line's opcode, its must-be-zero bits zero. -/
def OnLine (w : Word) (l : DecodeLine) : Prop := wordZero w = 0 ∧ wordOp w = l.op ∧ wordImm w &&& l.mbz = 0

theorem OnLine.decode_eq (h : OnLine w l) (hl : l ∈ decodeLines (wordImm w)) : decode w = .command l.cmd := by
  obtain ⟨hzero, hop, hclear⟩ := h
  rw [decode_of_zero hzero, hop, decodeOp_of_mem hl, unlessSet_clear hclear]

theorem decode_eq_command_iff :
    decode w = .command i ↔ ∃ l ∈ decodeLines (wordImm w), OnLine w l ∧ l.cmd = i := by
  refine ⟨fun h => ?_, fun ⟨l, hl, hon, hi⟩ => hi ▸ hon.decode_eq hl⟩
  by_cases hzero : wordZero w = 0
  · rw [decode_of_zero hzero] at h
    obtain ⟨l, hl, hop, hclear, hi⟩ := decodeOp_command h
    exact ⟨l, hl, ⟨hzero, hop.symm, hclear⟩, hi⟩
  · rw [decode_of_nonzero hzero] at h
    cases h

/-! ### A word and its fields (R68) -/

theorem wordOp_and (v w : Word) : wordOp (v &&& w) = wordOp v &&& wordOp w := BitVec.extractLsb'_and

theorem wordImm_and (v w : Word) : wordImm (v &&& w) = wordImm v &&& wordImm w := BitVec.extractLsb'_and

theorem wordZero_and (v w : Word) : wordZero (v &&& w) = wordZero v &&& wordZero w := BitVec.extractLsb'_and

theorem wordOp_or (v w : Word) : wordOp (v ||| w) = wordOp v ||| wordOp w := BitVec.extractLsb'_or

theorem wordImm_or (v w : Word) : wordImm (v ||| w) = wordImm v ||| wordImm w := BitVec.extractLsb'_or

theorem wordZero_or (v w : Word) : wordZero (v ||| w) = wordZero v ||| wordZero w := BitVec.extractLsb'_or

/-- A word is its three fields. -/
theorem word_eq_iff {v w : Word} :
    v = w ↔ wordZero v = wordZero w ∧ wordOp v = wordOp w ∧ wordImm v = wordImm w := by
  refine ⟨fun h => h ▸ ⟨rfl, rfl, rfl⟩, fun ⟨hzero, hop, himm⟩ => BitVec.eq_of_toNat_eq ?_⟩
  have hz := congrArg BitVec.toNat hzero
  have ho := congrArg BitVec.toNat hop
  have hi := congrArg BitVec.toNat himm
  simp only [wordZero, wordOp, wordImm, BitVec.extractLsb'_toNat, Nat.shiftRight_eq_div_pow] at hz ho hi
  omega

/-! ### Operands in the immediate (R69, R72) -/

/-- An operand of `n ≤ 16` bits is read back from the immediate it was put in. -/
theorem operand_setWidth {n : Nat} (x : BitVec n) (hn : n ≤ 16) : (x.setWidth 16 : Imm).extractLsb' 0 n = x := by
  rw [BitVec.extractLsb'_setWidth_of_le (by omega), BitVec.extractLsb'_eq_self]

/-- An immediate whose bits from `n` on must be zero, and are, is its operand of `n` bits. -/
theorem setWidth_operand {n : Nat} (hmbz : ∀ k, k < 16 → n ≤ k → mbz.getLsbD k = true) (h : imm &&& mbz = 0) :
    (imm.extractLsb' 0 n).setWidth 16 = imm := by
  apply BitVec.eq_of_getLsbD_eq
  intro k hk
  have hbit : (imm &&& mbz).getLsbD k = false := by rw [h]; exact BitVec.getLsbD_zero
  rw [BitVec.getLsbD_and] at hbit
  by_cases hn : k < n
  · simp [hk, hn]
  · have hk0 : imm.getLsbD k = false := by simpa [hmbz k hk (by omega)] using hbit
    rw [hk0, BitVec.getLsbD_setWidth, BitVec.getLsbD_extractLsb']
    simp [hn]

/-- The two bytes of HDR.PARSE fill the immediate, the second above the first. -/
theorem parseOperand_eq_append (b0 b1 : Byte) : (b0.setWidth 16 ||| (b1.setWidth 16 <<< 8) : Imm) = b1 ++ b0 := by
  rw [BitVec.or_comm, ← BitVec.setWidth_append_eq_shiftLeft_setWidth_or, BitVec.setWidth_eq]

theorem extractLsb'_one_eq_ofBool (imm : Imm) : imm.extractLsb' 0 1 = BitVec.ofBool (imm.getLsbD 0) := by
  rw [BitVec.getLsbD_eq_extractLsb']
  generalize imm.extractLsb' 0 1 = x
  revert x
  decide

/-! ### Decoding what was encoded -/

/-- A command whose line has an operand of `n` bits decodes from its word. -/
theorem decode_operand {n : Nat} {x : BitVec n} {cmd : Imm → Instr}
    (hline : ∀ imm, decodeOp op imm = unlessSet imm mbz (cmd imm)) (hmbz : ∀ k, k < n → mbz.getLsbD k = false)
    (hcmd : cmd (x.setWidth 16) = i) : decode (cmdWord op (x.setWidth 16)) = .command i := by
  rw [decode_cmdWord, hline, unlessSet_clear (EncodedRow.narrow x mbz hmbz), hcmd]

/-- The commands with a number in an 8-bit field. -/
theorem decode_count {mk : Nat → Instr} {n : Nat}
    (hline : ∀ imm, decodeOp op imm = unlessSet imm 0xFF00 (mk (imm.extractLsb' 0 8).toNat)) (hn : fitsByte n = true) :
    decode (cmdWord op ((BitVec.ofNat 8 n).setWidth 16)) = .command (mk n) := by
  have hle : n ≤ 255 := by simpa [fitsByte] using hn
  refine decode_operand (cmd := fun imm => mk (imm.extractLsb' 0 8).toNat) hline (by decide) ?_
  rw [operand_setWidth _ (by decide), BitVec.toNat_ofNat, Nat.mod_eq_of_lt (by omega)]

/-- The commands with one flag. -/
theorem decode_flag {mk : Bool → Instr} (b : Bool)
    (hline : ∀ imm, decodeOp op imm = unlessSet imm 0xFFFE (mk (imm.getLsbD 0))) :
    decode (cmdWord op ((BitVec.ofBool b).setWidth 16)) = .command (mk b) :=
  decode_operand (cmd := fun imm => mk (imm.getLsbD 0)) hline (by decide) (by cases b <;> rfl)

/-- Settles O1, command by command: each word has its line's opcode and must-be-zero bits, and the line reads its operand
back. -/
theorem decodeInvertsEncode : Obligations.DecodeInvertsEncode := by
  intro i hi
  cases i with
  | hdrBits | hdrType | hdrTxRnd | hdrRxRnd | hdrLen | asmConnDir | asmScanReq | asmScanRsp | pduHeader | pduPayload
  | pduFrame => decide
  | hdrNew k | ptyEnc k => exact decode_operand (fun _ => rfl) (by decide) (congrArg _ (operand_setWidth k (by decide)))
  | ptyDec n => exact decode_operand (fun _ => rfl) (by decide) (congrArg _ (operand_setWidth n (by decide)))
  | hdrParse b0 b1 =>
    have hline (imm : Imm) :
        decodeOp 0x11 imm = unlessSet imm 0#16 (.hdrParse (imm.extractLsb' 0 8) (imm.extractLsb' 8 8)) := rfl
    rw [encode, decode_cmdWord, hline, unlessSet_clear BitVec.and_zero, parseOperand_eq_append,
      BitVec.extractLsb'_append_eq_right, BitVec.extractLsb'_append_eq_left]
  | hdrSetTx b | hdrSetRx b => exact decode_flag b (fun _ => rfl)
  | hdrSetLen n | asmConnUndir n | asmNonconnUndir n | asmScannableUndir n | asmBeacon n | asmDiscoverable n =>
    exact decode_count (fun _ => rfl) hi

/-! ### Encoding what was decoded -/

/-- On immediates with the line's must-be-zero bits zero, the encoder makes of the line's command the line's word. -/
def Encodes (imm : Imm) (l : DecodeLine) : Prop :=
  imm &&& l.mbz = 0 → l.cmd.wellFormed = true ∧ encode l.cmd = cmdWord l.op imm

/-- A line with an operand of `n` bits, all others zero. -/
theorem encodes_operand {n : Nat} (x : BitVec n) (hx : imm.extractLsb' 0 n = x)
    (hmbz : ∀ k, k < 16 → n ≤ k → mbz.getLsbD k = true) (hi : i.wellFormed = true)
    (hword : encode i = cmdWord op (x.setWidth 16)) : Encodes imm ⟨op, mbz, i⟩ := by
  intro hclear
  refine ⟨hi, hword.trans ?_⟩
  rw [← hx, setWidth_operand hmbz hclear]

/-- A line without operand. -/
theorem encodes_none (hi : i.wellFormed = true) (hword : encode i = cmdWord op 0) : Encodes imm ⟨op, 0xFFFF, i⟩ :=
  encodes_operand 0#0 BitVec.of_length_zero (by decide) hi hword

/-- A line with one flag. -/
theorem encodes_flag {mk : Bool → Instr} (hmk : ∀ b, (mk b).wellFormed = true)
    (hword : ∀ b, encode (mk b) = cmdWord op ((BitVec.ofBool b).setWidth 16)) :
    Encodes imm ⟨op, 0xFFFE, mk (imm.getLsbD 0)⟩ :=
  encodes_operand _ (extractLsb'_one_eq_ofBool imm) (by decide) (hmk _) (hword _)

/-- A line with a number in an 8-bit field. -/
theorem encodes_count {mk : Nat → Instr} (hmk : ∀ n, (mk n).wellFormed = fitsByte n)
    (hword : ∀ n, encode (mk n) = cmdWord op ((BitVec.ofNat 8 n).setWidth 16)) :
    Encodes imm ⟨op, 0xFF00, mk (imm.extractLsb' 0 8).toNat⟩ := by
  have hfit : fitsByte (imm.extractLsb' 0 8).toNat = true := decide_eq_true (Nat.le_of_lt_succ (BitVec.isLt _))
  exact encodes_operand (imm.extractLsb' 0 8) rfl (by decide) ((hmk _).trans hfit)
    ((hword _).trans (by rw [BitVec.ofNat_toNat, BitVec.setWidth_eq]))

theorem encodes_hdrParse : Encodes imm ⟨0x11, 0x0000, .hdrParse (imm.extractLsb' 0 8) (imm.extractLsb' 8 8)⟩ := by
  refine fun _ => ⟨rfl, congrArg (cmdWord 0x11) ?_⟩
  rw [parseOperand_eq_append]
  exact BitVec.extractLsb'_append_extractLsb' (w := 8) (len := 8)

/-- Every line, in the order of the table, by the form of its operand. -/
theorem encodes_of_mem (hl : l ∈ decodeLines imm) : Encodes imm l := by
  revert l
  simp only [decodeLines, codecLines, pduLines, List.forall_mem_append, List.forall_mem_cons, List.not_mem_nil,
    false_imp_iff, implies_true, and_true]
  exact ⟨⟨encodes_operand _ rfl (by decide) rfl rfl, encodes_hdrParse, encodes_none rfl rfl, encodes_none rfl rfl,
      encodes_none rfl rfl, encodes_flag (fun _ => rfl) (fun _ => rfl), encodes_none rfl rfl,
      encodes_flag (fun _ => rfl) (fun _ => rfl), encodes_none rfl rfl, encodes_count (fun _ => rfl) (fun _ => rfl),
      encodes_operand _ rfl (by decide) rfl rfl, encodes_operand _ rfl (by decide) rfl rfl⟩,
    encodes_count (fun _ => rfl) (fun _ => rfl), encodes_none rfl rfl, encodes_count (fun _ => rfl) (fun _ => rfl),
    encodes_none rfl rfl, encodes_none rfl rfl, encodes_count (fun _ => rfl) (fun _ => rfl),
    encodes_count (fun _ => rfl) (fun _ => rfl), encodes_count (fun _ => rfl) (fun _ => rfl),
    encodes_none rfl rfl, encodes_none rfl rfl, encodes_none rfl rfl⟩

/-- Settles O2: the command is its line's, and the encoder makes the line's word of it. -/
theorem encodeInvertsDecode : Obligations.EncodeInvertsDecode := by
  intro w i h
  obtain ⟨l, hl, ⟨hzero, hop, hclear⟩, rfl⟩ := decode_eq_command_iff.mp h
  obtain ⟨hwf, hword⟩ := encodes_of_mem hl hclear
  exact ⟨hwf, by rw [hword, ← hop, cmdWord_of_fields hzero]⟩

/-! ### The opcode map (R70) -/

/-- The row of the opcode map that a line of the decoder stands for (R70). -/
def rowOf (l : DecodeLine) : OpcodeRow := ⟨l.cmd.mnemonic, cmdWord l.op 0, 0xFF000000 ||| cmdWord 0xFF l.mbz⟩

theorem opcodeTable_eq (imm : Imm) : opcodeTable = (decodeLines imm).map rowOf := by
  simp [opcodeTable, codecRows, pduRows, codecLines, pduLines, rowOf, Instr.mnemonic, cmdWord]

theorem rowOf_mask_zero (l : DecodeLine) : wordZero (rowOf l).mask = BitVec.allOnes 8 := by
  rw [rowOf, wordZero_or, wordZero_cmdWord]
  decide

theorem rowOf_mask_op (l : DecodeLine) : wordOp (rowOf l).mask = BitVec.allOnes 8 := by
  rw [rowOf, wordOp_or, wordOp_cmdWord]
  decide

theorem rowOf_mask_imm (l : DecodeLine) : wordImm (rowOf l).mask = l.mbz := by
  rw [rowOf, wordImm_or, wordImm_cmdWord]
  exact BitVec.zero_or

/-- A row covers the words of its line. -/
theorem covers_rowOf_iff : w &&& (rowOf l).mask = (rowOf l).pattern ↔ OnLine w l := by
  rw [word_eq_iff, wordZero_and, wordOp_and, wordImm_and, rowOf_mask_zero, rowOf_mask_op, rowOf_mask_imm,
    BitVec.and_allOnes, BitVec.and_allOnes, rowOf, wordZero_cmdWord, wordOp_cmdWord, wordImm_cmdWord, OnLine]

theorem exists_line_of_row {r : OpcodeRow} (hr : r ∈ opcodeTable) (imm : Imm) :
    ∃ l ∈ decodeLines imm, rowOf l = r := by
  rw [opcodeTable_eq imm] at hr
  exact List.mem_map.mp hr

theorem rowOf_mem (hl : l ∈ decodeLines imm) : rowOf l ∈ opcodeTable :=
  opcodeTable_eq imm ▸ List.mem_map_of_mem hl

/-- A word is a command exactly when a row of the opcode map covers it (R71). -/
theorem exists_command_iff_covered :
    (∃ i, decode w = .command i) ↔ ∃ r ∈ opcodeTable, w &&& r.mask = r.pattern := by
  constructor
  · rintro ⟨i, h⟩
    obtain ⟨l, hl, hon, -⟩ := decode_eq_command_iff.mp h
    exact ⟨rowOf l, rowOf_mem hl, covers_rowOf_iff.mpr hon⟩
  · rintro ⟨r, hr, hcov⟩
    obtain ⟨l, hl, rfl⟩ := exists_line_of_row hr (wordImm w)
    exact ⟨l.cmd, (covers_rowOf_iff.mp hcov).decode_eq hl⟩

/-- Settles O3: rows cover what their lines decode, and lines that share a word share its opcode. -/
theorem decoderIsTheOpcodeMap : Obligations.DecoderIsTheOpcodeMap := by
  refine ⟨rfl, fun w => exists_command_iff_covered, fun w i hd r hr hcov => ?_, fun w r hr q hq hrcov hqcov => ?_⟩
  · obtain ⟨l, hl, rfl⟩ := exists_line_of_row hr (wordImm w)
    cases hd.symm.trans ((covers_rowOf_iff.mp hcov).decode_eq hl)
    rfl
  · obtain ⟨l, hl, rfl⟩ := exists_line_of_row hr (wordImm w)
    obtain ⟨l', hl', rfl⟩ := exists_line_of_row hq (wordImm w)
    obtain ⟨-, hop, -⟩ := covers_rowOf_iff.mp hrcov
    obtain ⟨-, hop', -⟩ := covers_rowOf_iff.mp hqcov
    rw [eq_of_op_eq hl hl' (hop.symm.trans hop')]

/-- The low byte of a row's pattern is its line's opcode. -/
theorem rowOf_pattern_op (l : DecodeLine) : (rowOf l).pattern.extractLsb' 0 8 = l.op := wordOp_cmdWord l.op 0

/-- Settles O4: the rows have the lines' opcodes, and a row with the word's opcode fails to cover it only by a
must-be-zero bit. -/
theorem illegalWordsRefusedInOrder : Obligations.IllegalWordsRefusedInOrder := by
  refine fun w => ⟨decode_of_nonzero, fun hzero hunlisted => ?_, fun hzero r hr hop hcov => ?_⟩
  · refine (decode_of_zero hzero).trans (decodeOp_unlisted fun l hl => ?_)
    rw [← rowOf_pattern_op]
    exact hunlisted (rowOf l) (rowOf_mem hl)
  · obtain ⟨l, hl, rfl⟩ := exists_line_of_row hr (wordImm w)
    have hopcode : wordOp w = l.op := hop.symm.trans (rowOf_pattern_op l)
    have hset : wordImm w &&& l.mbz ≠ 0 := fun hclear => hcov (covers_rowOf_iff.mpr ⟨hzero, hopcode, hclear⟩)
    rw [decode_of_zero hzero, hopcode, decodeOp_of_mem hl, unlessSet_set hset]

/-- Settles O5: six of the words are what the encoder makes of their commands; the last has a must-be-zero bit set. -/
theorem writtenOutWordsDecode : Obligations.WrittenOutWordsDecode :=
  ⟨decodeInvertsEncode (.hdrNew 0x06) rfl, decodeInvertsEncode (.hdrParse 0x02 0x00) rfl,
    decodeInvertsEncode (.hdrSetLen 38) rfl, decodeInvertsEncode (.ptyEnc 0x19) rfl,
    decodeInvertsEncode (.asmNonconnUndir 1) rfl, decodeInvertsEncode .pduFrame rfl, rfl⟩

/-! ### The operands at the ports (R74, R75) -/

/-- A byte of an address operand is a digit of its value in base 256. -/
theorem addrByte_eq {a : AddrOperand} {x : Byte} (j : Nat) (h : a.toNat / 2 ^ (8 * j) % 2 ^ 8 = x.toNat) :
    addrByte a j = x := by
  apply BitVec.eq_of_toNat_eq
  rw [addrByte, BitVec.extractLsb'_toNat, Nat.shiftRight_eq_div_pow, h]

/-- Settles O6: the bytes are the digits of the operand's value, and the flag is what is left above them. -/
theorem addressOperandLayout : Obligations.AddressOperandLayout := by
  intro rnd a0 a1 a2 a3 a4 a5 a ha
  have hrnd := rnd.toNat_le
  have hval : a.toNat = a0.toNat + 2 ^ 8 * a1.toNat + 2 ^ 16 * a2.toNat + 2 ^ 24 * a3.toNat + 2 ^ 32 * a4.toNat
      + 2 ^ 40 * a5.toNat + 2 ^ 48 * rnd.toNat := by
    rw [ha, BitVec.toNat_ofNat, Nat.mod_eq_of_lt (by omega)]
  refine ⟨?_, ?_⟩
  · rw [addrBytes, addrByte_eq (x := a0) 0 (by omega), addrByte_eq (x := a1) 1 (by omega),
      addrByte_eq (x := a2) 2 (by omega), addrByte_eq (x := a3) 3 (by omega), addrByte_eq (x := a4) 4 (by omega),
      addrByte_eq (x := a5) 5 (by omega)]
  · have hbit : a.toNat / 2 ^ 48 % 2 = rnd.toNat := by omega
    rw [addrRnd, BitVec.getLsbD, Nat.testBit_eq_decide_div_mod_eq, hbit]
    cases rnd <;> rfl

/-! ### Illegal words (R71, R174) -/

/-- Settles O49: a word no row covers is no command, and the word taken is answered. -/
theorem illegalWordAnswered : Obligations.IllegalWordAnswered := by
  intro s c rest hs hq hrsp huncovered
  cases hd : decode c.word with
  | command i =>
    obtain ⟨r, hr, hcov⟩ := exists_command_iff_covered.mp ⟨i, hd⟩
    exact absurd hcov (huncovered r hr)
  | illegal why =>
    rw [step_accept hs.noReset hs.notFatal hs.notBusy hq, runWord_illegal (s := s.accept c rest) hd]
    exact respond_taken (s := s.accept c rest) _ _ _ hrsp

/-! ### The two type conversions (R66, R67) -/

/-- The 16 nibbles, by the code table (R64). -/
theorem dec_eq_rep (n : Nibble) : dec n = (Kind.ofNibble n).rep := by
  revert n
  decide

theorem enc_dec (n : Nibble) : enc (dec n) = n := BitVec.extractLsb'_append_eq_right

/-- Of the 32 representations exactly the canonical ones come back (R65, R67). -/
theorem dec_enc_eq_iff (k : KindRep) : dec (enc k) = k ↔ (k.getLsbD 4 = true ↔ 7 ≤ k.toNat % 16) := by
  revert k
  decide

theorem answered_data_inj {s : State} {st : Status} {d d' : BitVec 16} (h : answered s st d = answered s st d') :
    d = d' := by
  have hlog := congrArg State.rspLog h
  cases List.append_cancel_left hlog
  rfl

theorem exec_ptyDec {s : State} (n : Nibble) (hrsp : 0 < s.rspTake) :
    exec (.ptyDec n) s = .next (answered s .ok ((dec n).setWidth 16)) := respond_taken s _ _ hrsp

theorem exec_ptyEnc {s : State} (k : KindRep) (hrsp : 0 < s.rspTake) :
    exec (.ptyEnc k) s = .next (answered s .ok ((enc k).setWidth 16)) := respond_taken s _ _ hrsp

/-- Settles O22: the answers determine their operands, so the laws are those of `enc` and `dec`. -/
theorem kindConversionsInvert : Obligations.KindConversionsInvert := by
  refine ⟨fun n s hrsp => ⟨dec n, exec_ptyDec n hrsp, dec_eq_rep n, ?_⟩,
    fun k s hrsp => ⟨enc k, exec_ptyEnc k hrsp, ?_⟩⟩
  · rw [exec_ptyEnc _ hrsp, enc_dec]
  · rw [exec_ptyDec _ hrsp, ← dec_enc_eq_iff]
    refine ⟨fun h => ?_, fun h => by rw [h]⟩
    have hd : (dec (enc k)).setWidth 16 = k.setWidth 16 := answered_data_inj (Host.Outcome.next.inj h)
    rw [← operand_setWidth (dec (enc k)) (by decide), hd, operand_setWidth k (by decide)]

/-! ### Every command is answered (R197, R204) -/

variable {s t : State} {f : List Byte → List Byte} {count : BitVec 16}

/-- A reader within the buffer has at most a frame of 2 + 37 bytes to send (R204). -/
theorem beatsLeft_length_le (hr : readerOf s i = some (f, count)) (hl : slotLen s ≤ 37) :
    (beatsLeft s f).length ≤ 39 := by
  have hbytes : (f (s.pay.readBytes 0 (slotLen s))).length ≤ 39 := by
    obtain rfl | rfl := reader_cases hr <;> cases hr
    · rw [readBytes_length]; omega
    · simp only [frameBytes, headerBytes, List.length_append, List.length_cons, List.length_nil, readBytes_length]
      omega
  rw [beatsLeft, List.length_drop, outBeats_length]
  omega

theorem reader_outLog_length_le (hr : readerOf s i = some (f, count)) (h : exec i s = .next t) :
    t.outLog.length ≤ s.outLog.length + 39 := by
  cases hp : s.pv with
  | false =>
    rw [exec_eq_emitSlot hr, emitSlot, if_neg (by simp [hp])] at h
    obtain ⟨-, rfl⟩ | ⟨-, rfl⟩ := respond_cases h
    · exact Nat.le_add_right _ _
    · exact Nat.le_add_right _ _
  | true =>
    have hl := slotLen_le_of_reader hr hp h
    rw [exec_eq_emit hr hp hl] at h
    obtain ⟨t', ht', hlog⟩ := emit_respond_outLog s (f (s.pay.readBytes 0 (slotLen s))) count
    cases ht'.symm.trans h
    rw [hlog, ← beatsLeft, List.length_append, List.length_take]
    have hleft := beatsLeft_length_le hr hl
    omega

/-- The end of a command keeps the offered commands, and sends beats only with the status OK. -/
theorem Ending.beats {eff : State} {r : Response} (he : Ending i s eff r)
    (hend : exec i s = .next (eff.endCommand r)) :
    eff.cmdQ = s.cmdQ ∧ ∃ beats, eff.outLog = s.outLog ++ beats ∧ beats.length ≤ 39
      ∧ (beats ≠ [] → r.status = .ok) := by
  cases he with
  | header | answer | halt | assembled | full =>
    exact ⟨rfl, [], (List.append_nil _).symm, Nat.zero_le _, fun h => absurd rfl h⟩
  | emit f count beats hr =>
    have hlen := reader_outLog_length_le hr hend
    rw [endCommand_outLog, sendOut_outLog, List.length_append] at hlen
    exact ⟨rfl, beats, rfl, by omega, fun _ => rfl⟩

/-- Settles O54: the invariant bounds the frame to 39 beats, so the host withholds nothing and the command ends. -/
theorem everyCommandIsAnswered : Obligations.EveryCommandIsAnswered := by
  intro s c rest hinv hs hq hout hrsp hseq
  rw [step_accept hs.noReset hs.notFatal hs.notBusy hq]
  have hinv' : Inv (s.accept c rest) := (Runs.accept c rest hs.notBusy hq).inv hs.notFatal hinv
  cases hd : decode c.word with
  | illegal why =>
    rw [runWord_illegal (s := s.accept c rest) hd, respond_taken (s := s.accept c rest) _ _ _ hrsp]
    exact ⟨_, ⟨.illegal, 0⟩, [], rfl, rfl, rfl, rfl, (List.append_nil _).symm, Nat.zero_le _,
      fun h => absurd rfl h⟩
  | command i =>
    have hlen (hp : (s.accept c rest).pv = true) : slotLen (s.accept c rest) ≤ 37 := (hinv'.slot hp).lenHigh
    have hw : ¬ Withheld i (s.accept c rest) := by
      rintro (h0 | ⟨n, hn, hnone⟩ | ⟨f, count, hr, hp, hroom⟩)
      · exact absurd h0 (Nat.ne_of_gt hrsp)
      · exact absurd hnone (Option.ne_none_iff_isSome.mpr (hseq i n hd hn))
      · have hleft := beatsLeft_length_le hr (hlen hp)
        rw [accept_outTake] at hroom
        omega
    obtain ⟨eff, r, he, hend⟩ := exec_ends hw hlen
    obtain ⟨hcmdQ, beats, hlog, hmax, hok⟩ := he.beats hend
    exact ⟨_, r, beats, (runWord_command (s := s.accept c rest) hd).trans hend, rfl, hcmdQ,
      congrArg (· ++ [r]) he.rspLog, hlog, hmax, hok⟩

/-! ### Ports a command does not use (R75) -/

variable {g k : AddrOperand → AddrOperand}

/-- The state with `g` and `k` applied to the values sampled at the two address ports. -/
def mapPorts (g k : AddrOperand → AddrOperand) (s : State) : State := { s with opa := g s.opa, opb := k s.opb }

theorem respond_mapPorts (s eff : State) (st : Status) (d : BitVec 16) :
    (mapPorts g k s).respond (mapPorts g k eff) st d = mapNext (mapPorts g k) (s.respond eff st d) := by
  unfold State.respond
  change (if s.rspTake = 0 then _ else _) = _
  split <;> rfl

theorem emit_respond_mapPorts (s : State) (bs : List Byte) (count : BitVec 16) :
    (mapPorts g k s).emit bs (fun s1 => s1.respond s1 .ok count)
      = mapNext (mapPorts g k) (s.emit bs (fun s1 => s1.respond s1 .ok count)) := by
  unfold State.emit
  change (if ((outBeats bs).drop s.outSent).length ≤ s.outTake then _ else _) = _
  split
  · exact respond_mapPorts (s.sendOut _) (s.sendOut _) .ok count
  · rfl

theorem emitSlot_mapPorts (f : List Byte → List Byte) (count : BitVec 16) (s : State) :
    emitSlot f count (mapPorts g k s) = mapNext (mapPorts g k) (emitSlot f count s) := by
  have hpv : (mapPorts g k s).pv = s.pv := rfl
  have hread : (mapPorts g k s).memRead 0 (slotLen (mapPorts g k s)) = s.memRead 0 (slotLen s) := rfl
  rw [emitSlot, emitSlot, hpv, hread]
  split
  · cases s.memRead 0 (slotLen s) with
    | none => rfl
    | some payload => exact emit_respond_mapPorts s (f payload) count
  · exact respond_mapPorts s s .noPdu 0

theorem writeSlice_mapPorts (s : State) (bs : List Byte) :
    (mapPorts g k s).writeSlice bs = (s.writeSlice bs).map (mapPorts g k) := by
  unfold State.writeSlice
  change (if s.spaceLeft < bs.length then _ else _) = _
  split <;> rfl

theorem writeElems_mapPorts (es : List (List Byte)) (s : State) :
    writeElems es (mapPorts g k s) = (mapPorts g k (writeElems es s).1, (writeElems es s).2) := by
  induction es generalizing s with
  | nil => rfl
  | cons e es ih =>
    rw [writeElems, writeElems, writeSlice_mapPorts]
    cases s.writeSlice e with
    | none => rfl
    | some s' => exact ih s'

theorem advAssemble_mapPorts (ty : Kind) (a : AddrOperand) (es : List (List Byte)) (s : State) :
    advAssemble ty a es (mapPorts g k s)
      = (mapPorts g k (advAssemble ty a es s).1, (advAssemble ty a es s).2) := by
  have hzero : (mapPorts g k s).zeroFill = mapPorts g k s.zeroFill := by
    simp only [State.zeroFill, State.memWrite, State.setPos, mapPorts]
  rw [advAssemble, advAssemble, hzero, writeSlice_mapPorts]
  cases s.zeroFill.writeSlice (addrBytes a) with
  | none => rfl
  | some s2 =>
    simp only [Option.map_some, writeElems_mapPorts]
    obtain ⟨s3, fitted⟩ := writeElems es s2
    cases fitted <;> rfl

theorem asmCommit_mapPorts (s cur : State) (h : Option Header) :
    asmCommit (mapPorts g k s) (mapPorts g k cur, h) = mapNext (mapPorts g k) (asmCommit s (cur, h)) := by
  cases h with
  | none => exact respond_mapPorts s cur.dropPdu .capacity 0
  | some v => exact respond_mapPorts s (cur.holdPdu v) .ok 0

theorem readElems_mapPorts {cont : List (List Byte) → State → Host.Outcome State Fault Refusal} (n : Nat) (s : State)
    (hcont : ∀ es u, cont es (mapPorts g k u) = mapNext (mapPorts g k) (cont es u)) :
    (mapPorts g k s).readElems n cont = mapNext (mapPorts g k) (s.readElems n cont) := by
  cases hseq : adReadSeq n (s.adTaken ++ s.adQ) with
  | none => rw [readElems_held (s := s) cont hseq, readElems_held (s := mapPorts g k s) cont hseq]; rfl
  | some p =>
    rw [readElems_complete (s := s) cont hseq, readElems_complete (s := mapPorts g k s) cont hseq]
    exact hcont p.1 (s.takeAd _ p.2)

theorem assembleWith_mapOpb (ty : Kind) (first : List (List Byte)) (n : Nat) (s : State) :
    assembleWith ty first n (mapPorts id k s) = mapNext (mapPorts id k) (assembleWith ty first n s) := by
  refine readElems_mapPorts n s fun es u => ?_
  rw [advAssemble_mapPorts]
  exact asmCommit_mapPorts u _ _

/-- A command's outcome does not depend on the values at the ports it does not use. -/
theorem exec_mapPorts (hopa : readsOpa i = true → g = id) (hopb : i ≠ .asmConnDir) (s : State) :
    exec i (mapPorts g k s) = mapNext (mapPorts g k) (exec i s) := by
  cases i with
  | hdrNew | hdrParse | hdrSetTx | hdrSetRx => exact respond_mapPorts s (s.setH _) .ok 0
  | hdrBits | hdrType | hdrTxRnd | hdrRxRnd | hdrLen | ptyDec | ptyEnc | asmScanReq | asmScanRsp =>
    exact respond_mapPorts s s _ _
  | hdrSetLen n =>
    change execHdrSetLen n (mapPorts g k s) = mapNext _ (execHdrSetLen n s)
    unfold execHdrSetLen
    split
    · exact respond_mapPorts s (s.setH _) .ok 0
    · exact respond_mapPorts s s.setFatal .fatal _
  | asmConnUndir | asmNonconnUndir | asmScannableUndir | asmBeacon | asmDiscoverable =>
    rw [hopa rfl]
    exact assembleWith_mapOpb _ _ _ s
  | asmConnDir => exact absurd rfl hopb
  | pduHeader =>
    change (if s.pv then _ else _) = mapNext _ (if s.pv then _ else _)
    split
    · exact respond_mapPorts s s .ok s.phdr
    · exact respond_mapPorts s s .noPdu 0
  | pduPayload | pduFrame => exact emitSlot_mapPorts _ _ s

/-- Settles O56: the values at a port that is not used may be mapped by a constant. -/
theorem unusedOperandsIgnored : Obligations.UnusedOperandsIgnored := by
  refine fun i s a b => ⟨fun hi => ?_, fun hi => ?_⟩
  · have hne : i ≠ .asmConnDir := by rintro rfl; cases hi
    exact exec_mapPorts (g := fun _ => a) (k := fun _ => b) (fun h => by simp [hi] at h) hne s
  · exact exec_mapPorts (g := id) (k := fun _ => b) (fun _ => rfl) hi s

end Sys2Proof.Proofs

/-! Family 40_header_codec: the ten commands on `H` (spec/40_header_codec.md R100 to R112). The layer below says once
what each does to `H` or answers (`exec_of_writesH`, `exec_of_hdrGetter`, `exec_hdrSetLen_illegal`) and what every bit
of `H` is after each setter (`hdrSetTx_bit`, `hdrSetRx_bit`, `hdrSetLen_bit`); the statements are read off these. -/

namespace Sys2Proof.Proofs

open Sys2Proof.Machine Sys2Proof.Laws Sys2Proof.Safety

variable {i : Instr} {s t : State}

/-! ### What a header command does (R109) -/

/-- The value of `H` after a header command that writes it, given the value before. -/
def writtenH (h : Header) : Instr → Header
  | .hdrNew k => hdrNew k
  | .hdrParse b0 b1 => hdrParse b0 b1
  | .hdrSetTx b => hdrSetTx h b
  | .hdrSetRx b => hdrSetRx h b
  | .hdrSetLen n => hdrSetLen h n
  | _ => h

/-- The value a getter answers, given `H`. -/
def getterData (h : Header) : Instr → BitVec 16
  | .hdrBits => hdrBits h
  | .hdrType => (hdrType h).setWidth 16
  | .hdrTxRnd => flagData (hdrTxRnd h)
  | .hdrRxRnd => flagData (hdrRxRnd h)
  | .hdrLen => (hdrLen h).setWidth 16
  | _ => 0

theorem lenLegal_eq_true {n : Nat} (hmin : 6 ≤ n) (hmax : n ≤ 37) : lenLegal n = true := by
  simp [lenLegal, hmin, hmax]

theorem exec_of_writesH (hi : writesH i = true) : exec i s = s.respond (s.setH (writtenH s.h i)) .ok 0 := by
  obtain ⟨k, rfl⟩ | ⟨b0, b1, rfl⟩ | ⟨b, rfl⟩ | ⟨b, rfl⟩ | ⟨n, rfl, -, -⟩ := writesH_cases hi
  · rfl
  · rfl
  · rfl
  · rfl
  · exact if_pos hi

theorem exec_of_hdrGetter (hi : isHdrGetter i = true) : exec i s = s.respond s .ok (getterData s.h i) := by
  cases i with
  | hdrBits | hdrType | hdrTxRnd | hdrRxRnd | hdrLen => rfl
  | _ => cases hi

theorem exec_hdrSetLen_illegal {n : Nat} (hn : lenLegal n = false) :
    exec (.hdrSetLen n) s = s.respond s.setFatal .fatal (BitVec.ofNat 16 n) := if_neg (by simp [hn])

/-- A header command responds OK or FATAL with `H` and FATAL alone written, FATAL by HDR.SETLEN only and `H` by no
getter. -/
theorem exec_hdr (hi : isHdr i = true) (s : State) :
    ∃ v f st d, exec i s = s.respond { s with h := v, fatal := f } st d ∧ (st = .ok ∨ st = .fatal)
      ∧ (f ≠ s.fatal → ∃ n, i = .hdrSetLen n) ∧ (isHdrGetter i = true → v = s.h) := by
  cases i with
  | hdrNew | hdrParse | hdrSetTx | hdrSetRx =>
    exact ⟨_, s.fatal, _, _, exec_of_writesH rfl, .inl rfl, fun hf => absurd rfl hf, nofun⟩
  | hdrBits | hdrType | hdrTxRnd | hdrRxRnd | hdrLen =>
    exact ⟨s.h, s.fatal, _, _, exec_of_hdrGetter rfl, .inl rfl, fun hf => absurd rfl hf, fun _ => rfl⟩
  | hdrSetLen n =>
    cases hn : lenLegal n with
    | true => exact ⟨_, s.fatal, _, _, exec_of_writesH hn, .inl rfl, fun hf => absurd rfl hf, nofun⟩
    | false => exact ⟨s.h, true, _, _, exec_hdrSetLen_illegal hn, .inr rfl, fun _ => ⟨n, rfl⟩, nofun⟩
  | _ => cases hi

/-- Settles O17: a header command holds, or responds with `H` and FATAL alone written. -/
theorem hdrCommandsTouchHeaderOnly : Obligations.HdrCommandsTouchHeaderOnly := by
  intro i s t hi h
  obtain ⟨v, f, st, d, hexec, hst, hfatal, hget⟩ := exec_hdr hi s
  obtain ⟨-, rfl⟩ | ⟨-, rfl⟩ := respond_cases (hexec.symm.trans h)
  · exact ⟨rfl, rfl, fun _ => rfl, rfl, rfl, rfl, rfl, rfl, rfl, rfl, rfl, fun hf => absurd rfl hf, fun _ => rfl,
      .inl rfl⟩
  · exact ⟨rfl, rfl, fun _ => rfl, rfl, rfl, rfl, rfl, rfl, rfl, rfl, rfl, hfatal, hget, .inr ⟨⟨st, d⟩, rfl, hst⟩⟩

theorem exec_of_writesH_taken (hi : writesH i = true) (hrsp : 0 < s.rspTake) :
    exec i s = .next (answered { s with h := writtenH s.h i } .ok 0) :=
  (exec_of_writesH hi).trans (respond_taken (s.setH _) _ _ hrsp)

theorem exec_of_hdrGetter_taken (hi : isHdrGetter i = true) (hrsp : 0 < s.rspTake) :
    exec i s = .next (answered s .ok (getterData s.h i)) :=
  (exec_of_hdrGetter hi).trans (respond_taken s _ _ hrsp)

/-! ### The setters bit by bit (R105, R107, R110) -/

/-- Replacing one bit of a header. -/
theorem getLsbD_replaceBit (h : Header) (b : Bool) {n : Nat} (hn : n < 16) (j : Nat) :
    ((h &&& ~~~BitVec.twoPow 16 n) ||| ((BitVec.ofBool b).setWidth 16 <<< n)).getLsbD j
      = if j = n then b else h.getLsbD j := by
  by_cases hj : j < 16
  · obtain hlt | rfl | hgt := Nat.lt_trichotomy j n
    · simp [hj, hlt, Nat.ne_of_lt hlt]
    · simp [hj]
    · have hpos : j - n ≠ 0 := by omega
      have hlt : ¬ j < n := by omega
      simp [hj, hlt, hpos, Nat.ne_of_gt hgt]
  · have hne : j ≠ n := by omega
    rw [if_neg hne, BitVec.getLsbD_of_ge _ j (by omega), BitVec.getLsbD_of_ge h j (by omega)]

theorem hdrSetTx_bit (h : Header) (b : Bool) (j : Nat) :
    (hdrSetTx h b).getLsbD j = if j = 6 then b else h.getLsbD j := by
  have hmask : txAddMask = BitVec.twoPow 16 6 := by decide
  rw [hdrSetTx, hmask, getLsbD_replaceBit h b (by decide)]

theorem hdrSetRx_bit (h : Header) (b : Bool) (j : Nat) :
    (hdrSetRx h b).getLsbD j = if j = 7 then b else h.getLsbD j := by
  have hmask : rxAddMask = BitVec.twoPow 16 7 := by decide
  rw [hdrSetRx, hmask, getLsbD_replaceBit h b (by decide)]

theorem lenMask_bit {j : Nat} (hj : j < 16) : lenMask.getLsbD j = decide (8 ≤ j ∧ j < 14) := by
  revert j
  decide

/-- A length up to 37 stays within its six bits. -/
theorem hdrSetLen_bit (h : Header) {n : Nat} (hn : n ≤ 37) (j : Nat) :
    (hdrSetLen h n).getLsbD j = if 8 ≤ j ∧ j < 14 then n.testBit (j - 8) else h.getLsbD j := by
  by_cases hj : j < 16
  · rw [hdrSetLen, BitVec.getLsbD_or, BitVec.getLsbD_and, BitVec.getLsbD_not, lenMask_bit hj, BitVec.getLsbD_shiftLeft,
      BitVec.getLsbD_ofNat]
    by_cases hlow : j < 8
    · simp [hj, hlow, Nat.not_le_of_lt hlow]
    · have h16 : j - 8 < 16 := by omega
      by_cases hfield : j < 14
      · simp [hj, hlow, h16, hfield, Nat.le_of_not_lt hlow]
      · have hsix : n < 2 ^ 6 := by omega
        have hhigh : n.testBit (j - 8) = false :=
          Nat.testBit_lt_two_pow (hsix.trans_le (Nat.pow_le_pow_right (by decide) (by omega)))
        simp [hj, hfield, hhigh]
  · have hout : ¬ (8 ≤ j ∧ j < 14) := by omega
    rw [if_neg hout, BitVec.getLsbD_of_ge _ j (by omega), BitVec.getLsbD_of_ge h j (by omega)]

/-! ### The written-out words (R69) -/

/-- The word of a command, as the number its opcode and immediate make. -/
theorem decode_ofNat {op : Byte} {imm : Imm} {v : Nat} (hi : i.wellFormed = true) (hword : encode i = cmdWord op imm)
    (hv : v = op.toNat + 256 * imm.toNat) : decode (BitVec.ofNat 32 v) = .command i := by
  rw [hv, ← cmdWord_eq_ofNat, ← hword, decodeInvertsEncode i hi]

/-- The word of a command with one flag. -/
theorem decode_flagWord {op : Byte} {v : Nat} (b : Bool) (hi : i.wellFormed = true)
    (hword : encode i = cmdWord op ((BitVec.ofBool b).setWidth 16)) (hv : v = op.toNat + 256 * b.toNat) :
    decode (BitVec.ofNat 32 v) = .command i :=
  decode_ofNat hi hword (by rw [hv, BitVec.toNat_setWidth_of_le (by decide), BitVec.toNat_ofBool])

/-! ### The writers of `H` (R100, R101, R105, R107, R110) -/

/-- Settles O7: `H` is the type nibble, zero-extended. -/
theorem hdrNewBuildsHeader : Obligations.HdrNewBuildsHeader := by
  refine ⟨fun k => decode_ofNat rfl rfl (by rw [BitVec.toNat_setWidth_of_le (by decide)]; rfl), fun k s hrsp =>
    ⟨_, exec_of_writesH_taken rfl hrsp, operand_setWidth (enc k) (by decide), fun j hj => ?_⟩⟩
  rw [writtenH, hdrNew, BitVec.getLsbD_setWidth, BitVec.getLsbD_of_ge (enc k) j hj, Bool.and_false]

theorem hdrParse_eq_append (b0 b1 : Byte) : hdrParse b0 b1 = b1 ++ b0 := parseOperand_eq_append b0 b1

theorem append_toNat (b0 b1 : Byte) : (b1 ++ b0).toNat = b0.toNat + 256 * b1.toNat := by
  rw [BitVec.toNat_append, ← Nat.shiftLeft_add_eq_or_of_lt b0.isLt, Nat.shiftLeft_eq]
  omega

/-- Settles O8: `H` is the second byte above the first, and so is the immediate. -/
theorem hdrParseLoadsBothBytes : Obligations.HdrParseLoadsBothBytes := by
  refine ⟨fun b0 b1 => decode_ofNat rfl rfl ?_, fun b0 b1 s hrsp => ⟨_, exec_of_writesH_taken rfl hrsp, ?_⟩⟩
  · have hop : (0x11 : Byte).toNat = 0x11 := rfl
    rw [parseOperand_eq_append, append_toNat, hop]
    omega
  · rw [writtenH, hdrParse_eq_append]
    exact ⟨BitVec.extractLsb'_append_eq_right, BitVec.extractLsb'_append_eq_left⟩

/-- Settles O12, by the bits of the header written. -/
theorem hdrSetTxWritesBit6Only : Obligations.HdrSetTxWritesBit6Only := by
  refine ⟨fun b => decode_flagWord b rfl rfl rfl, fun b s hrsp =>
    ⟨_, exec_of_writesH_taken rfl hrsp, ?_, fun j hj => ?_⟩⟩
  · rw [writtenH, hdrSetTx_bit, if_pos rfl]
  · rw [writtenH, hdrSetTx_bit, if_neg hj]

/-- Settles O14, by the bits of the header written. -/
theorem hdrSetRxWritesBit7Only : Obligations.HdrSetRxWritesBit7Only := by
  refine ⟨fun b => decode_flagWord b rfl rfl rfl, fun b s hrsp =>
    ⟨_, exec_of_writesH_taken rfl hrsp, ?_, fun j hj => ?_⟩⟩
  · rw [writtenH, hdrSetRx_bit, if_pos rfl]
  · rw [writtenH, hdrSetRx_bit, if_neg hj]

/-- The length field holds the length it was given. -/
theorem hdrSetLen_field (h : Header) {n : Nat} (hn : n ≤ 37) : (hdrSetLen h n).extractLsb' 8 6 = BitVec.ofNat 6 n := by
  apply BitVec.eq_of_getLsbD_eq
  intro j hj
  have hin : 8 ≤ 8 + j ∧ 8 + j < 14 := by omega
  rw [BitVec.getLsbD_extractLsb', hdrSetLen_bit h hn, if_pos hin, BitVec.getLsbD_ofNat, Nat.add_sub_cancel_left]

/-- Settles O16: in range the field is replaced, out of range FATAL is set, and the step finds it set. -/
theorem hdrSetLenReplacesOrHalts : Obligations.HdrSetLenReplacesOrHalts := by
  refine ⟨fun n hn => decode_ofNat (decide_eq_true hn) rfl ?_, fun n s hmin hmax hrsp =>
    ⟨_, exec_of_writesH_taken (lenLegal_eq_true hmin hmax) hrsp, ?_, fun j hj => ?_⟩, fun n s hn hrsp => ?_,
    fun t hf hr => step_halted hr hf⟩
  · rw [BitVec.toNat_setWidth_of_le (by decide), BitVec.toNat_ofNat, Nat.mod_eq_of_lt (Nat.lt_succ_of_le hn)]
    rfl
  · rw [writtenH, hdrSetLen_field s.h hmax, BitVec.toNat_ofNat, Nat.mod_eq_of_lt (by omega)]
  · rw [writtenH, hdrSetLen_bit s.h hmax, if_neg (by omega)]
  · exact (exec_hdrSetLen_illegal (lenLegal_eq_false hn)).trans (respond_taken (s := s) s.setFatal _ _ hrsp)

/-! ### The getters (R102 to R104, R106, R108) -/

/-- Settles O9: the getter's data is `H`. -/
theorem hdrBitsReturnsAllBits : Obligations.HdrBitsReturnsAllBits :=
  ⟨decodeInvertsEncode .hdrBits rfl, fun _ hrsp => exec_of_hdrGetter_taken rfl hrsp⟩

/-- The answer for a named kind (R64, R65). -/
theorem dec_data_named {n : Nibble} (hn : n.toNat ≤ 6) : (dec n).setWidth 16 = (n.setWidth 16 : BitVec 16) := by
  revert n
  decide

/-- The answer for the unknown kind: bit 4 over the nibble (R64, R65). -/
theorem dec_data_unknown {n : Nibble} (hn : 7 ≤ n.toNat) : (dec n).setWidth 16 = 0x0010#16 ||| n.setWidth 16 := by
  revert n
  decide

/-- Settles O10: the answer is the kind of the nibble, named or unknown. -/
theorem hdrTypeReturnsKind : Obligations.HdrTypeReturnsKind := by
  refine ⟨decodeInvertsEncode .hdrType rfl, fun s hrsp => ?_⟩
  have hexec : exec .hdrType s = .next (answered s .ok ((dec (s.h.extractLsb' 0 4)).setWidth 16)) :=
    exec_of_hdrGetter_taken rfl hrsp
  exact ⟨fun hn => by rw [hexec, dec_data_named hn], fun hn => by rw [hexec, dec_data_unknown hn]⟩

theorem flagData_eq (b : Bool) : flagData b = if b then 1 else 0 := by
  cases b <;> rfl

/-- Settles O11: the getter's data is the flag of bit 6. -/
theorem hdrTxRndReturnsBit6 : Obligations.HdrTxRndReturnsBit6 :=
  ⟨decodeInvertsEncode .hdrTxRnd rfl, fun s hrsp => flagData_eq (hdrTxRnd s.h) ▸ exec_of_hdrGetter_taken rfl hrsp⟩

/-- Settles O13: the getter's data is the flag of bit 7. -/
theorem hdrRxRndReturnsBit7 : Obligations.HdrRxRndReturnsBit7 :=
  ⟨decodeInvertsEncode .hdrRxRnd rfl, fun s hrsp => flagData_eq (hdrRxRnd s.h) ▸ exec_of_hdrGetter_taken rfl hrsp⟩

/-- The length field as a number. -/
theorem hdrLen_data (h : Header) : (hdrLen h).setWidth 16 = BitVec.ofNat 16 (h.toNat / 256 % 64) := by
  apply BitVec.eq_of_toNat_eq
  rw [BitVec.toNat_setWidth_of_le (by decide), hdrLen, BitVec.extractLsb'_toNat, Nat.shiftRight_eq_div_pow,
    BitVec.toNat_ofNat]
  omega

/-- Settles O15: the getter's data is the length field, whatever it holds. -/
theorem hdrLenReturnsField : Obligations.HdrLenReturnsField :=
  ⟨decodeInvertsEncode .hdrLen rfl, fun s hrsp => hdrLen_data s.h ▸ exec_of_hdrGetter_taken rfl hrsp⟩

/-! ### Laws of the codec (R111, R112) -/

/-- A header is its two bytes, the second above the first. -/
theorem hdrParse_bytes (h : Header) : hdrParse (h.extractLsb' 0 8) (h.extractLsb' 8 8) = h := by
  rw [hdrParse_eq_append]
  exact BitVec.extractLsb'_append_extractLsb' (w := 8) (len := 8)

/-- Settles O18: what HDR.BITS answers is `H`, and HDR.PARSE of its bytes writes it. -/
theorem headerBytesRoundTrip : Obligations.HeaderBytesRoundTrip := by
  refine fun s u hs hu => ⟨s.h, exec_of_hdrGetter_taken rfl hs, ?_⟩
  rw [exec_of_writesH_taken rfl hu, writtenH, hdrParse_bytes]

/-- A run of commands that write `H` applies their writes one after the other. -/
theorem execAll_of_writesH {is : List Instr} (hi : ∀ i ∈ is, writesH i = true) (hrsp : is.length ≤ s.rspTake) :
    ∃ t, execAll is s = .next t ∧ t.h = is.foldl writtenH s.h ∧ t.fatal = s.fatal := by
  induction is generalizing s with
  | nil => exact ⟨s, rfl, rfl, rfl⟩
  | cons i is ih =>
    rw [List.length_cons] at hrsp
    obtain ⟨hhead, htail⟩ := List.forall_mem_cons.mp hi
    obtain ⟨t, hrun, hh, hfatal⟩ :=
      ih (s := answered { s with h := writtenH s.h i } .ok 0) htail (Nat.le_sub_of_add_le hrsp)
    refine ⟨t, ?_, hh, hfatal⟩
    rw [execAll, exec_of_writesH_taken hhead (by omega)]
    exact hrun

/-- Two writes to different bits of a header commute. -/
theorem comm_of_disjoint_bits {f g : Header → Header} {P Q : Nat → Prop} [DecidablePred P] [DecidablePred Q]
    {x y : Nat → Bool} (hf : ∀ h j, (f h).getLsbD j = if P j then x j else h.getLsbD j)
    (hg : ∀ h j, (g h).getLsbD j = if Q j then y j else h.getLsbD j) (hdisj : ∀ j, Q j → ¬ P j) (h : Header) :
    g (f h) = f (g h) := by
  apply BitVec.eq_of_getLsbD_eq
  intro j _
  rw [hg, hf, hf, hg]
  exact ite_ite_comm (Q j) (P j) (y j) (x j) (hdisj j)

/-- The two commands write `H` to one value in either order. -/
def WritesCommute (i j : Instr) : Prop := ∀ h, writtenH (writtenH h i) j = writtenH (writtenH h j) i

/-- The setters write different bits, so any two of them commute. -/
theorem setters_writesCommute (tx rx : Bool) {n : Nat} (hn : n ≤ 37) :
    ∀ ⦃i⦄, i ∈ [Instr.hdrSetTx tx, .hdrSetRx rx, .hdrSetLen n] →
    ∀ ⦃j⦄, j ∈ [Instr.hdrSetTx tx, .hdrSetRx rx, .hdrSetLen n] → WritesCommute i j := by
  have : Std.Symm WritesCommute := ⟨fun _ _ hij h => (hij h).symm⟩
  refine List.Pairwise.forall_of_forall (fun _ _ _ => rfl) ?_
  rw [List.pairwise_cons, List.forall_mem_cons, List.forall_mem_singleton, List.pairwise_pair]
  have htx (h : Header) (j : Nat) := hdrSetTx_bit h tx j
  have hrx (h : Header) (j : Nat) := hdrSetRx_bit h rx j
  have hlen (h : Header) (j : Nat) := hdrSetLen_bit h hn j
  exact ⟨⟨comm_of_disjoint_bits htx hrx (by omega), comm_of_disjoint_bits htx hlen (by omega)⟩,
    comm_of_disjoint_bits hrx hlen (by omega)⟩

/-- Settles O19: the setters commute, so their order may be the one that builds the packed form. -/
theorem settersCommute : Obligations.SettersCommute := by
  intro k tx rx n s is hmin hmax hrsp hperm
  have hset : ∀ i ∈ [Instr.hdrSetTx tx, .hdrSetRx rx, .hdrSetLen n], writesH i = true := by
    simp [writesH, lenLegal_eq_true hmin hmax]
  have hwrites : ∀ i ∈ .hdrNew k :: is, writesH i = true :=
    List.forall_mem_cons.mpr ⟨rfl, fun i hi => hset i (hperm.mem_iff.mp hi)⟩
  have hcount : (.hdrNew k :: is).length ≤ s.rspTake := by
    rwa [List.length_cons, hperm.length_eq]
  obtain ⟨t, hrun, hh, hfatal⟩ := execAll_of_writesH hwrites hcount
  refine ⟨t, hrun, ?_, hfatal⟩
  calc t.h = is.foldl writtenH (hdrNew k) := hh
    _ = [Instr.hdrSetLen n, .hdrSetTx tx, .hdrSetRx rx].foldl writtenH (hdrNew k) :=
      (hperm.trans (List.perm_append_comm (l₁ := [Instr.hdrSetTx tx, .hdrSetRx rx]))).foldl_eq'
        (fun i hi j hj => setters_writesCommute tx rx hmax (hperm.mem_iff.mp hi) (hperm.mem_iff.mp hj)) _
    _ = packHeader (enc k) tx rx n := header_by_setters (enc k) tx rx n hmax

end Sys2Proof.Proofs

/-! Family 41_pdu_type: the two conversion commands (spec/41_pdu_type.md R120, R121). What each answers is
`exec_ptyDec` and `exec_ptyEnc`; the layer below gives that data as the number the spec writes. -/

namespace Sys2Proof.Proofs

open Sys2Proof.Machine

/-! ### The data of the answers as numbers (R64 to R66) -/

/-- The kind a nibble decodes to: its code when named, and its code with `unk` (bit 4) set when unknown. -/
theorem dec_data_eq_ofNat (n : Nibble) :
    (dec n).setWidth 16
      = if n.toNat ≤ 6 then BitVec.ofNat 16 n.toNat else BitVec.ofNat 16 (16 + n.toNat) := by
  split
  case isTrue hnamed => rw [dec_data_named hnamed, BitVec.ofNat_toNat]
  case isFalse hunknown =>
    have hdisjoint : ∀ m : Nibble, 0x0010#16 &&& m.setWidth 16 = 0#16 := by decide
    rw [dec_data_unknown (Nat.lt_of_not_le hunknown), BitVec.ofNat_add, BitVec.ofNat_toNat,
      BitVec.add_eq_or_of_and_eq_zero _ _ (hdisjoint n)]

/-- The nibble of a representation is its value without `unk`, the bit of weight 16. -/
theorem enc_data_eq_ofNat (k : KindRep) : (enc k).setWidth 16 = BitVec.ofNat 16 (k.toNat % 16) := by
  rw [← BitVec.ofNat_toNat, enc, BitVec.extractLsb'_toNat, Nat.shiftRight_zero]

/-! ### The two commands (R69, R120, R121) -/

/-- The word of a command with an operand of `n` bits. -/
theorem decode_operandWord {n : Nat} {i : Instr} {op : Byte} {v : Nat} (x : BitVec n) (hn : n ≤ 16)
    (hi : i.wellFormed = true) (hword : encode i = cmdWord op (x.setWidth 16)) (hv : v = op.toNat + 256 * x.toNat) :
    decode (BitVec.ofNat 32 v) = .command i :=
  decode_ofNat hi hword (by rw [hv, BitVec.toNat_setWidth_of_le hn])

/-- Settles O20: the answer is the kind `dec` gives, by its code. -/
theorem ptyDecGivesKind : Obligations.PtyDecGivesKind := by
  refine ⟨fun n => decode_operandWord n (by decide) rfl rfl rfl, fun n s hrsp => ?_⟩
  rw [exec_ptyDec n hrsp, dec_data_eq_ofNat]

/-- Settles O21: the answer is the nibble `enc` gives, the remainder of `K` by 16. -/
theorem ptyEncGivesNibble : Obligations.PtyEncGivesNibble := by
  refine ⟨fun k => decode_operandWord k (by decide) rfl rfl rfl, fun k s hrsp => ?_⟩
  rw [exec_ptyEnc k hrsp, enc_data_eq_ofNat]

end Sys2Proof.Proofs

/-! Family 42_assembler: the eight commands of the assembler (spec/42_assembler.md R130 to R146). A complete element
sequence has two outcomes, `exec_constructor_fit` and `exec_constructor_full`, and the number of bytes decides between
them; the statements about the five element-taking commands are read off these two. -/

namespace Sys2Proof.Proofs

open Sys2Proof.Machine Sys2Proof.Laws Sys2Proof.Safety

variable {i : Instr} {s t : State}

/-! ### Elements that do not fit (R48, R132, R140) -/

/-- Where the bounded writer, starting at cursor `p`, stops: before the first element that does not fit. -/
def stopPos : Nat → List (List Byte) → Nat
  | p, [] => p
  | p, e :: es => if p + e.length ≤ 37 then stopPos (p + e.length) es else p

theorem writeElems_pos (es : List (List Byte)) (hp : s.pos ≤ 37) : (writeElems es s).1.pos = stopPos s.pos es := by
  induction es generalizing s with
  | nil => rfl
  | cons e es ih =>
    rw [writeElems, stopPos]
    by_cases he : s.pos + e.length ≤ 37
    · rw [writeSlice_fits he, if_pos he]
      exact ih he
    · rw [writeSlice_full hp (Nat.lt_of_not_le he), if_neg he]

theorem advAssemble_pos (ty : Kind) (a : AddrOperand) (es : List (List Byte)) (s : State) :
    (advAssemble ty a es s).1.pos = stopPos 6 es := by
  obtain ⟨s2, hslice, hpos⟩ : ∃ s2, s.zeroFill.writeSlice (addrBytes a) = some s2 ∧ s2.pos = 6 :=
    ⟨_, writeSlice_fits (by simp [State.zeroFill]), rfl⟩
  rw [advAssemble, hslice, ← hpos, ← writeElems_pos es (by omega)]
  simp only
  obtain ⟨s3, fitted⟩ := writeElems es s2
  cases fitted <;> rfl

/-- Elements that do not fit empty the slot, once the whole declared sequence is taken. -/
theorem exec_constructor_full {ty : Kind} {first es : List (List Byte)} {rest : List Byte} {n : Nat}
    (hi : i.nelem? = some n) (hc : constructorOf i = some (ty, first))
    (hseq : adReadSeq n (s.adTaken ++ s.adQ) = some (es, rest)) (hfull : 31 < elemTotal (first ++ es))
    (hrsp : 0 < s.rspTake) :
    exec i s = .next (answered
      ((s.takeAd (takenOf s rest) rest).setPos (stopPos 6 (first ++ es))).dropPdu .capacity 0) := by
  obtain ⟨written, -, hadv⟩ := advAssemble_full ty s.opa (first ++ es) (s.takeAd (takenOf s rest) rest) hfull
  have hpos := advAssemble_pos ty s.opa (first ++ es) (s.takeAd (takenOf s rest) rest)
  rw [hadv] at hpos
  rw [exec_eq_of_constructorOf hi hc, assembleWith, readElems_complete _ hseq, ← takenOf, takeAd_opa, hadv, ← hpos]
  exact raise_taken (s := s.takeAd (takenOf s rest) rest) _ .capacityExceeded hrsp

/-! ### The element-taking commands (R134 to R138) -/

/-- The mandatory elements count towards the total by their bytes. -/
theorem elemTotal_append (first es : List (List Byte)) :
    elemTotal (first ++ es) = first.flatten.length + elemTotal es := by
  simp only [elemTotal_eq_flatten_length, List.flatten_append, List.length_append]

/-- A command assembles the kind, and puts first the elements, that `constructorOf` says; `room` is what these leave of
the 31 bytes (R143). -/
theorem assembles_of_constructorOf {n room : Nat} {ty : Kind} {first : List (List Byte)} {code : Nibble}
    {flags : List Byte} (hi : i.nelem? = some n) (hc : constructorOf i = some (ty, first)) (hcode : enc ty.rep = code)
    (hflags : first.flatten = flags) (hroom : flags.length + room = 31) : Assembles i n code flags room := by
  subst hcode hflags
  rintro s es rest rfl hes hstream hrsp
  have hseq : adReadSeq es.length (s.adTaken ++ s.adQ) = some (es, rest) := hstream ▸ adReadSeq_frameElems hes rest
  have htotal := elemTotal_append first es
  refine ⟨fun hfit => ⟨filled s (addrBytes s.opa ++ first.flatten ++ es.flatten), ?_,
      fun a ha => filled_read s _ ha⟩,
    fun hfull => ⟨_, _, _, exec_constructor_full hi hc hseq (by omega) hrsp⟩⟩
  have hlen : (addrBytes s.opa ++ (first ++ es).flatten).length = 6 + first.flatten.length + elemTotal es := by
    rw [List.length_append, addrBytes_length, ← elemTotal_eq_flatten_length, htotal, Nat.add_assoc]
  rw [exec_constructor_fit hi hc hseq (by omega) hrsp, fillSlot, hlen, htotal, List.flatten_append, List.append_assoc,
    Nat.add_assoc]
  rfl

/-- The word of a command with a count of elements. -/
theorem decode_countWord {op : Byte} {n v : Nat} (hn : n ≤ 255) (hi : i.wellFormed = true)
    (hword : encode i = cmdWord op ((BitVec.ofNat 8 n).setWidth 16)) (hv : v = op.toNat + 256 * n) :
    decode (BitVec.ofNat 32 v) = .command i :=
  decode_operandWord (BitVec.ofNat 8 n) (by decide) hi hword
    (by rw [hv, BitVec.toNat_ofNat, Nat.mod_eq_of_lt (Nat.lt_succ_of_le hn)])

/-- Settles O26: no element comes first, so all 31 bytes are the caller's. -/
theorem plainConstructorsAssemble : Obligations.PlainConstructorsAssemble :=
  ⟨fun _ hn => ⟨decode_countWord hn (decide_eq_true hn) rfl rfl, decode_countWord hn (decide_eq_true hn) rfl rfl,
      decode_countWord hn (decide_eq_true hn) rfl rfl⟩,
    fun _ => ⟨assembles_of_constructorOf rfl rfl rfl rfl rfl, assembles_of_constructorOf rfl rfl rfl rfl rfl,
      assembles_of_constructorOf rfl rfl rfl rfl rfl⟩⟩

/-- Settles O27: the three bytes of the Flags element come first and leave 28. -/
theorem flaggedConstructorsAssemble : Obligations.FlaggedConstructorsAssemble :=
  ⟨fun _ hn => ⟨decode_countWord hn (decide_eq_true hn) rfl rfl, decode_countWord hn (decide_eq_true hn) rfl rfl⟩,
    fun _ => ⟨assembles_of_constructorOf rfl rfl rfl rfl rfl, assembles_of_constructorOf rfl rfl rfl rfl rfl⟩⟩

/-! ### The commands without elements (R139, R141, R142) -/

/-- Settles O28: the slot is filled with the twelve address bytes. -/
theorem connDirAssembles : Obligations.ConnDirAssembles :=
  ⟨decodeInvertsEncode .asmConnDir rfl,
    fun s hrsp => ⟨_, _, exec_asmConnDir hrsp, fun _ ha => filled_read s _ ha⟩⟩

/-- Settles O29: both commands raise the failure that has no effect on the state. -/
theorem scanConstructorsUnsupported : Obligations.ScanConstructorsUnsupported :=
  ⟨decodeInvertsEncode .asmScanReq rfl, decodeInvertsEncode .asmScanRsp rfl,
    fun s hrsp => ⟨raise_taken s .unsupported hrsp, raise_taken s .unsupported hrsp⟩⟩

/-! ### The concatenation decides (R143) -/

theorem payBytes_congr {n : Nat} (hn : n ≤ 37) (h : ∀ a, a < 37 → s.pay.read a = t.pay.read a) :
    payBytes s n = payBytes t n :=
  List.map_congr_left fun a ha => h a (Nat.lt_of_lt_of_le (List.mem_range.mp ha) hn)

/-- A command that assembles as R132 says makes the same of two sequences with the same concatenation. -/
theorem boundaries_ignored {mk : Nat → Instr} {code : Nibble} {flags : List Byte} {room : Nat}
    {es fs : List (List Byte)} (hmk : ∀ n, Assembles (mk n) n code flags room) (hroom : flags.length + room = 31)
    (hes : ∀ e ∈ es, e.length ≤ 255) (hfs : ∀ f ∈ fs, f.length ≤ 255) (hflat : es.flatten = fs.flatten)
    (htaken : s.adTaken = []) (hrsp : 0 < s.rspTake) :
    ∃ t u, exec (mk es.length) { s with adQ := frameElems es } = .next t
      ∧ exec (mk fs.length) { s with adQ := frameElems fs } = .next u
      ∧ t.rspLog = u.rspLog ∧ t.pv = u.pv
      ∧ (t.pv = true → t.phdr = u.phdr ∧ payBytes t (slotLen t) = payBytes u (slotLen u)) := by
  have htotal : elemTotal es = elemTotal fs := by simp only [elemTotal_eq_flatten_length, hflat]
  have hstream (gs : List (List Byte)) : s.adTaken ++ frameElems gs = frameElems gs ++ [] := by simp [htaken]
  obtain ⟨hfit, hfull⟩ := hmk es.length { s with adQ := frameElems es } es [] rfl hes (hstream es) hrsp
  obtain ⟨hfit', hfull'⟩ := hmk fs.length { s with adQ := frameElems fs } fs [] rfl hfs (hstream fs) hrsp
  by_cases h : elemTotal es ≤ room
  · obtain ⟨pay, ht, hread⟩ := hfit h
    obtain ⟨pay', hu, hread'⟩ := hfit' (htotal ▸ h)
    rw [← hflat] at hread'
    have hphdr := congrArg (fun total => packHeader code (s.opa.getLsbD 48) false (6 + flags.length + total)) htotal
    refine ⟨_, _, ht, hu, rfl, rfl, fun _ => ⟨hphdr, ?_⟩⟩
    obtain ⟨hlen, -⟩ := packHeader_fields code (s.opa.getLsbD 48) false (6 + flags.length + elemTotal es) (by omega)
    rw [slotLen, slotLen, ← hphdr]
    exact payBytes_congr (hlen.trans_le (by omega)) fun a ha => (hread a ha).trans (hread' a ha).symm
  · obtain ⟨_, _, _, ht⟩ := hfull (Nat.lt_of_not_le h)
    obtain ⟨_, _, _, hu⟩ := hfull' (htotal ▸ Nat.lt_of_not_le h)
    exact ⟨_, _, ht, hu, rfl, rfl, nofun⟩

/-- Settles O30: each of the five commands assembles as R132 says. -/
theorem assemblyIgnoresBoundaries : Obligations.AssemblyIgnoresBoundaries := by
  intro mk hmem s es fs hes hfs hflat htaken hrsp
  obtain ⟨-, hplain⟩ := plainConstructorsAssemble
  obtain ⟨-, hflagged⟩ := flaggedConstructorsAssemble
  simp only [List.mem_cons, List.not_mem_nil, or_false] at hmem
  obtain rfl | rfl | rfl | rfl | rfl := hmem
  · exact boundaries_ignored (fun n => (hplain n).1) rfl hes hfs hflat htaken hrsp
  · exact boundaries_ignored (fun n => (hplain n).2.1) rfl hes hfs hflat htaken hrsp
  · exact boundaries_ignored (fun n => (hplain n).2.2) rfl hes hfs hflat htaken hrsp
  · exact boundaries_ignored (fun n => (hflagged n).1) rfl hes hfs hflat htaken hrsp
  · exact boundaries_ignored (fun n => (hflagged n).2) rfl hes hfs hflat htaken hrsp

/-! ### The mandatory element is one more element (R137, R138) -/

/-- The kind, all the elements and the bytes left over decide the outcome, whoever puts the first elements there. -/
theorem exec_eq_of_same_elements {j : Instr} {n m : Nat} {ty : Kind} {first first' es fs : List (List Byte)}
    {a q rest : List Byte} (hi : i.nelem? = some n) (hci : constructorOf i = some (ty, first))
    (hj : j.nelem? = some m) (hcj : constructorOf j = some (ty, first'))
    (hseq : adReadSeq n (s.adTaken ++ s.adQ) = some (es, rest)) (hseq' : adReadSeq m (a ++ q) = some (fs, rest))
    (hsame : first ++ es = first' ++ fs) (hrsp : 0 < s.rspTake) : exec i s = exec j (s.takeAd a q) := by
  by_cases hfit : elemTotal (first ++ es) ≤ 31
  · rw [exec_constructor_fit hi hci hseq hfit hrsp,
      exec_constructor_fit (s := s.takeAd a q) hj hcj hseq' (hsame ▸ hfit) hrsp, ← hsame]
    rfl
  · have hfull := Nat.lt_of_not_le hfit
    rw [exec_constructor_full hi hci hseq hfull hrsp,
      exec_constructor_full (s := s.takeAd a q) hj hcj hseq' (hsame ▸ hfull) hrsp, ← hsame]
    rfl

/-- Settles O31: the Flags element of the one command is an element of the sequence of the other. -/
theorem flaggedEqualsPlainWithFlags : Obligations.FlaggedEqualsPlainWithFlags := by
  intro s es hes htaken hrsp
  have hseq {gs : List (List Byte)} (hgs : ∀ g ∈ gs, g.length ≤ 255) :
      adReadSeq gs.length (s.adTaken ++ frameElems gs) = some (gs, []) := by
    simpa [htaken] using adReadSeq_frameElems hgs []
  have hflags (f : Byte) : ∀ g ∈ flagsElem f :: es, g.length ≤ 255 :=
    List.forall_mem_cons.mpr ⟨by simp [flagsElem], hes⟩
  exact ⟨exec_eq_of_same_elements (s := { s with adQ := frameElems es }) rfl rfl rfl rfl (hseq hes)
      (hseq (hflags Config.flagsBroadcast)) rfl hrsp,
    exec_eq_of_same_elements (s := { s with adQ := frameElems es }) rfl rfl rfl rfl (hseq hes)
      (hseq (hflags Config.flagsDiscoverable)) rfl hrsp⟩

/-! ### Failing again (R130, R181) -/

theorem exists_constructorOf {n : Nat} (hi : i.nelem? = some n) : ∃ ty first, constructorOf i = some (ty, first) := by
  cases i <;> cases hi <;> exact ⟨_, _, rfl⟩

/-- A command that answers CAPACITY is an element-taking one whose complete sequence does not fit. -/
theorem exec_capacity (hi : isAssembling i = true) (h : exec i s = .next t)
    (hlog : t.rspLog = s.rspLog ++ [⟨.capacity, 0⟩]) :
    0 < s.rspTake ∧ ∃ n ty first es rest, i.nelem? = some n ∧ constructorOf i = some (ty, first)
      ∧ adReadSeq n (s.adTaken ++ s.adQ) = some (es, rest) ∧ 31 < elemTotal (first ++ es) := by
  have hnew : t.rspLog ≠ s.rspLog := by simp [hlog]
  have hrsp : 0 < s.rspTake := Nat.pos_of_ne_zero fun h0 => hnew (exec_held h (.inr h0)).rspLog
  refine ⟨hrsp, ?_⟩
  obtain hn | rfl := isAssembling_iff.mp hi
  · obtain ⟨n, hn⟩ := Option.isSome_iff_exists.mp hn
    obtain ⟨ty, first, hc⟩ := exists_constructorOf hn
    cases hseq : adReadSeq n (s.adTaken ++ s.adQ) with
    | none =>
      rw [exec_eq_of_constructorOf hn hc, assembleWith, readElems_held _ hseq] at h
      cases h
      exact absurd rfl hnew
    | some p =>
      refine ⟨n, ty, first, p.1, p.2, hn, hc, hseq, Nat.lt_of_not_le fun hfit => ?_⟩
      rw [exec_constructor_fit hn hc hseq hfit hrsp] at h
      cases h
      simp [answered, fillSlot] at hlog
  · rw [exec_asmConnDir hrsp] at h
    cases h
    simp [answered, fillSlot] at hlog

/-- Settles O33: nothing that decides the failure has changed, since it is the command and the element bytes. -/
theorem failedAssemblyFailsAgain : Obligations.FailedAssemblyFailsAgain := by
  intro i s t hi h hlog
  obtain ⟨hrsp, n, ty, first, es, rest, hn, hc, hseq, hfull⟩ := exec_capacity hi h hlog
  rw [exec_constructor_full hn hc hseq hfull hrsp] at h
  cases h
  exact ⟨rfl, _, exec_constructor_full hn hc hseq hfull hrsp, rfl, rfl, rfl⟩

end Sys2Proof.Proofs

/-! Family 43_pdu_buffer: the three readers of the slot (spec/43_pdu_buffer.md R160 to R165). A reader with nothing
withheld answers (`exec_pduHeader_of_held`, `exec_reader_answers`, `exec_pdu_empty`), and what any run of it does is fixed
by the slot (`exec_pdu_cases`), which it leaves as it is (`exec_pdu_next`). -/

namespace Sys2Proof.Proofs

open Sys2Proof.Machine Sys2Proof.Laws Sys2Proof.Safety

variable {i : Instr} {s t : State}

/-! ### What a reader answers (R160 to R164) -/

theorem exec_pdu_empty (hi : isPdu i = true) (hp : s.pv = false) (hrsp : 0 < s.rspTake) :
    exec i s = .next (answered s .noPdu 0) := (exec_pdu_of_empty hi hp).trans (respond_taken s _ _ hrsp)

theorem exec_pduHeader_of_held (hp : s.pv = true) : exec .pduHeader s = s.respond s .ok s.phdr := if_pos hp

theorem readBytes_eq_payBytes (s : State) (n : Nat) : s.pay.readBytes 0 n = payBytes s n := by
  simp [memory_readBytes_eq_map, payBytes]

theorem payBytes_length (s : State) (n : Nat) : (payBytes s n).length = n := by simp [payBytes]

theorem hdrLen_eq_ofNat_slotLen (s : State) : (hdrLen s.phdr).setWidth 16 = BitVec.ofNat 16 (slotLen s) :=
  (BitVec.ofNat_toNat 16 _).symm

/-- The end of a command forgets how many beats it sent. -/
theorem answered_sendOut_lastMarked (s : State) (bs : List Byte) (st : Status) (d : BitVec 16) :
    answered (s.sendOut (lastMarked bs)) st d
      = answered { s with outLog := s.outLog ++ lastMarked bs, outTake := s.outTake - bs.length } st d := by
  simp only [answered, State.sendOut, ← outBeats_eq_lastMarked, outBeats_length]

/-- A reader of a held PDU, started afresh with every beat taken, sends what it makes of the first `PHDR[13:8]` bytes. -/
theorem exec_reader_answers {f : List Byte → List Byte} {count : BitVec 16} {bs : List Byte}
    (hr : readerOf s i = some (f, count)) (hp : s.pv = true) (hl : slotLen s ≤ 37)
    (hbs : f (payBytes s (slotLen s)) = bs) (h0 : s.outSent = 0) (hroom : bs.length ≤ s.outTake)
    (hrsp : 0 < s.rspTake) :
    exec i s = .next (answered
      { s with outLog := s.outLog ++ lastMarked bs, outTake := s.outTake - bs.length } .ok count) := by
  rw [exec_reader_ends hr hp hl (readBytes_eq_payBytes s _ ▸ hbs) h0 hroom hrsp, answered_sendOut_lastMarked]

/-- Settles O34: the slot decides between the header and the failure without effect. -/
theorem pduHeaderReturnsCopy : Obligations.PduHeaderReturnsCopy :=
  ⟨decodeInvertsEncode .pduHeader rfl, fun s hrsp =>
    ⟨fun hp => (exec_pduHeader_of_held hp).trans (respond_taken s _ _ hrsp), fun hp => exec_pdu_empty rfl hp hrsp⟩⟩

/-- Settles O35: the payload is sent as it is, and its number of bytes is the length field. -/
theorem pduPayloadEmitsPayload : Obligations.PduPayloadEmitsPayload := by
  refine ⟨decodeInvertsEncode .pduPayload rfl, ?_⟩
  rintro s _ rfl h0 hrsp
  refine ⟨fun hp hl hroom => ?_, fun hp => exec_pdu_empty rfl hp hrsp⟩
  have hlen := payBytes_length s (slotLen s)
  have hexec := exec_reader_answers (i := .pduPayload) rfl hp hl rfl h0 (hlen.trans_le hroom) hrsp
  rw [hlen, hdrLen_eq_ofNat_slotLen] at hexec
  exact hexec

/-- Settles O36: the two header bytes come before the payload and count with it. -/
theorem pduFrameEmitsFrame : Obligations.PduFrameEmitsFrame := by
  refine ⟨decodeInvertsEncode .pduFrame rfl, ?_⟩
  rintro s _ rfl h0 hrsp
  refine ⟨fun hp hl hroom => ?_, fun hp => exec_pdu_empty rfl hp hrsp⟩
  have hlen : (frameBytes s.phdr (payBytes s (slotLen s))).length = slotLen s + 2 := by
    rw [frameBytes, List.length_append, payBytes_length, Nat.add_comm]
    rfl
  have hcount : (hdrLen s.phdr).setWidth 16 + 2 = BitVec.ofNat 16 (slotLen s + 2) := by
    rw [hdrLen_eq_ofNat_slotLen]
    exact (BitVec.ofNat_add _ 2).symm
  have hexec := exec_reader_answers (i := .pduFrame) rfl hp hl rfl h0 (hlen.trans_le hroom) hrsp
  rw [hlen, hcount] at hexec
  exact hexec

/-! ### Reading again (R164) -/

/-- The slot of `t` is that of `s`. -/
def SameSlot (s t : State) : Prop := t.pv = s.pv ∧ t.phdr = s.phdr ∧ t.pay = s.pay

/-- The slot fixes what a reader does: in every state with the same slot it answers the same at once, or emits the same
bytes and then answers the same. -/
theorem exec_pdu_cases (hi : isPdu i = true) (h : exec i s = .next t) :
    (∃ st d, ∀ s', SameSlot s s' → exec i s' = s'.respond s' st d)
    ∨ ∃ bs count, ∀ s', SameSlot s s' → exec i s' = s'.emit bs (fun s1 => s1.respond s1 .ok count) := by
  cases hp : s.pv with
  | false => exact .inl ⟨_, _, fun _ ⟨hpv, _⟩ => exec_pdu_of_empty hi (hpv.trans hp)⟩
  | true =>
    have reads {f : List Byte → List Byte} {count : BitVec 16} (hr : readerOf s i = some (f, count)) {s' : State}
        (hs : SameSlot s s') : exec i s' =
          s'.emit (f (s.pay.readBytes 0 (slotLen s))) (fun s1 => s1.respond s1 .ok count) := by
      obtain ⟨hpv, hphdr, hpay⟩ := hs
      have hlen : slotLen s' = slotLen s := by rw [slotLen, slotLen, hphdr]
      have hl := slotLen_le_of_reader hr hp h
      rw [exec_eq_emit ((readerOf_congr hphdr).trans hr) (hpv.trans hp) (hlen.trans_le hl), hlen, hpay]
    cases i with
    | pduHeader =>
      refine .inl ⟨.ok, s.phdr, fun s' ⟨hpv, hphdr, _⟩ => ?_⟩
      rw [exec_pduHeader_of_held (hpv.trans hp), hphdr]
    | pduPayload | pduFrame => exact .inr ⟨_, _, fun _ => reads rfl⟩
    | _ => cases hi

/-- A reader that goes on has sent beats and, if it has ended, answered; it does nothing else. -/
theorem exec_pdu_next (hi : isPdu i = true) (h : exec i s = .next t) :
    ∃ beats, t = s.sendOut beats ∨ ∃ r, t = (s.sendOut beats).endCommand r := by
  obtain ⟨st, d, hexec⟩ | ⟨bs, count, hexec⟩ := exec_pdu_cases hi h
  · have hnil : s.sendOut [] = s := by simp [State.sendOut]
    obtain ⟨-, rfl⟩ | ⟨-, rfl⟩ := respond_cases ((hexec s ⟨rfl, rfl, rfl⟩).symm.trans h)
    · exact ⟨[], .inl hnil.symm⟩
    · exact ⟨[], .inr ⟨_, by rw [hnil]⟩⟩
  · obtain ⟨beats, rfl⟩ | ⟨beats, rfl, -⟩ := emit_respond_cases ((hexec s ⟨rfl, rfl, rfl⟩).symm.trans h)
    · exact ⟨beats, .inl rfl⟩
    · exact ⟨beats, .inr ⟨_, rfl⟩⟩

theorem respond_outLog (s : State) (st : Status) (d : BitVec 16) :
    ∃ t, s.respond s st d = .next t ∧ t.outLog = s.outLog := by
  obtain h0 | hpos := Nat.eq_zero_or_pos s.rspTake
  · exact ⟨s, respond_untaken s st d h0, rfl⟩
  · exact ⟨_, respond_taken s st d hpos, rfl⟩

/-- The slot fixes the bytes of a reader: in every state with the same slot it sends their beats from the one it has come
to on, as far as the host takes them. -/
theorem exec_pdu_sends (hi : isPdu i = true) (h : exec i s = .next t) :
    ∃ bs : List Byte, ∀ s', SameSlot s s' →
      ∃ t', exec i s' = .next t' ∧ t'.outLog = s'.outLog ++ ((outBeats bs).drop s'.outSent).take s'.outTake := by
  obtain ⟨st, d, hexec⟩ | ⟨bs, count, hexec⟩ := exec_pdu_cases hi h
  · refine ⟨[], fun s' hs => ?_⟩
    obtain ⟨t', ht', hlog⟩ := respond_outLog s' st d
    exact ⟨t', (hexec s' hs).trans ht', by simp [outBeats, hlog]⟩
  · refine ⟨bs, fun s' hs => ?_⟩
    rw [hexec s' hs]
    exact emit_respond_outLog s' bs count

/-- Settles O38: beats and the response leave the slot as it is, and the slot fixes what is sent. -/
theorem readingDoesNotConsume : Obligations.ReadingDoesNotConsume := by
  intro i s t hi h
  obtain ⟨beats, rfl | ⟨r, rfl⟩⟩ := exec_pdu_next hi h
  · exact ⟨rfl, rfl, rfl, fun _ => rfl, rfl, rfl, rfl, rfl, fun hs ht _ => absurd (hs.symm.trans ht) (by decide)⟩
  · refine ⟨rfl, rfl, rfl, fun _ => rfl, rfl, rfl, rfl, rfl, fun _ _ h0 => ?_⟩
    obtain ⟨bs, hsends⟩ := exec_pdu_sends hi h
    obtain ⟨t, ht, hlog⟩ := hsends s ⟨rfl, rfl, rfl⟩
    obtain ⟨u, hu, hlog'⟩ :=
      hsends { (s.sendOut beats).endCommand r with rspTake := s.rspTake, outTake := s.outTake } ⟨rfl, rfl, rfl⟩
    cases ht.symm.trans h
    rw [h0] at hlog
    exact ⟨_, hlog, u, hu, hlog'⟩

end Sys2Proof.Proofs

/-! Family 60_exceptions: the fatal halt (spec/60_exceptions.md R176). The violation ends HDR.SETLEN with its response;
what the halted block then does follows from `step_halted` and `step_reset`. -/

namespace Sys2Proof.Proofs

open Sys2Proof.Machine Sys2Proof.Laws Sys2Proof.Safety

variable {s : State}

theorem exec_hdrSetLen_illegal_taken {n : Nat} (hn : n < 6 ∨ 37 < n) (hrsp : 0 < s.rspTake) :
    exec (.hdrSetLen n) s = .next (answered { s with fatal := true } .fatal (BitVec.ofNat 16 n)) :=
  (exec_hdrSetLen_illegal (lenLegal_eq_false hn)).trans (respond_taken (s := s) s.setFatal _ _ hrsp)

theorem pinCmdReady_of_fatal (hf : s.fatal = true) : pinCmdReady s = false := by
  simp [pinCmdReady, hf]

/-- Settles O42: out of range answers and halts, a halted step is the fault, and a pulse clears FATAL and keeps the
offers. -/
theorem haltedAcceptsNothing : Obligations.HaltedAcceptsNothing := by
  refine ⟨fun n s hn hrsp => exec_hdrSetLen_illegal_taken hn hrsp, fun s hf => ⟨fun hr => ?_, fun hr => ?_⟩⟩
  · have hfault : step s = .fault .fatalHalt := step_halted hr hf
    exact ⟨hfault, pinCmdReady_of_fatal hf, hf, rfl⟩
  · have hreset : step s = .next s.applyReset := step_reset hr
    exact ⟨s.applyReset, hreset, rfl, rfl⟩

end Sys2Proof.Proofs
